-- ==== Sys2Proof/Word.lean ====
section
/-! DEFINITION. The two word types of the block: a byte of a stream (00_scope.md R14, R16) and a register
(00_scope.md R15). Lengths, indices and cursors are natural numbers (R17: "no rule relies on wrap-around"). -/

namespace Sys2Proof

/-- A byte: an unsigned 8-bit value (R16). -/
abbrev Byte := BitVec 8

/-- The contents of `ILEN`, `OLEN`, `IDX` and of the container header: 32 bits (R15, R113). -/
abbrev Word32 := BitVec 32

end Sys2Proof
end

