-- ==== Sys2Proof/Config.lean ====
section
/-! DEFINITION. What an instance of the block fixes (00_scope.md R11 to R14) and the free values of the model. -/

namespace Sys2Proof

/-- The parameters of an instance (00_scope.md R11 to R13). They are constants of the instance (10_state.md R50);
the model carries them, unchanged, in `State.cfg` (DESIGN CHOICE, log 1), so that a statement about every state is a
statement about every instance. -/
structure Config where
  /-- `NMAX`, the capacity of each buffer in bytes (R11). -/
  nmax : Nat
  /-- `HAS_FRAMER`: whether `CT.ENC` and `CT.DEC` exist (R12). -/
  hasFramer : Bool
  /-- `HDR_BIAS`, 0 or 1 (R13). -/
  hdrBias : Fin 2
  /-- R11: `1 <= NMAX`. -/
  nmax_pos : 1 ≤ nmax
  /-- R11: `NMAX <= 2^32 - 1`. -/
  nmax_lt : nmax < 2 ^ 32
  deriving DecidableEq, Repr

/-- The instance `State.reset` describes: `HAS_FRAMER` and `HDR_BIAS` at the spec's defaults (R12, R13); `NMAX`, which
the spec leaves open, at 1024, the least value its test vectors allow (DESIGN CHOICE, log 1). -/
def Config.standard : Config where
  nmax := 1024
  hasFramer := true
  hdrBias := 1
  nmax_pos := by decide
  nmax_lt := by decide

/-- The value drawn for an unspecified byte (00_scope.md R20: "any value of the right width (a draw), never a fixed
value"): the arguments are the number of the draw and the byte's index. It has no body, so nothing can be proved of
it (log 4). -/
opaque Config.freeByte : Nat → Nat → Byte

/-- "run cap 127" (R14): the longest run or literal segment of one record. -/
def Config.runCap : Nat := 127

/-- "minimum repeat-record run 3" (R14). -/
def Config.minRepeatRun : Nat := 3

/-- "store threshold 512 bytes" (R14). -/
def Config.storeThreshold : Nat := 512

/-- "header size 4 bytes" (R14). -/
def Config.headerBytes : Nat := 4

/-- "alphabet size 256" (R14). -/
def Config.alphabetSize : Nat := 256

end Sys2Proof
end

