-- ==== Sys2Proof/Syntax.lean ====
section
/-! DEFINITION. The instructions: one constructor per row of spec/opcode_table.json (00_scope.md R2: an instruction
is a command the host issues or a record of the run-coded stream; the table adds the two container headers). -/

namespace Sys2Proof

/-- An instruction. No command word carries an operand (30_encoding.md R102). -/
inductive Instr where
  /-- `NOP`, `0x00` (44_control.md R241). -/
  | nop
  /-- `BST.FWD`, `0x01` (40_bst.md R136). -/
  | bstFwd
  /-- `BST.INV`, `0x02` (40_bst.md R142). -/
  | bstInv
  /-- `RRT.FWD`, `0x03` (41_rrt.md R163). -/
  | rrtFwd
  /-- `RRT.INV`, `0x04` (41_rrt.md R167). -/
  | rrtInv
  /-- `RC.ENC`, `0x05` (42_rc.md R184). -/
  | rcEnc
  /-- `RC.DEC`, `0x06` (42_rc.md R193). -/
  | rcDec
  /-- `CT.ENC`, `0x07`, where `HAS_FRAMER = 1` (43_container.md R214). -/
  | ctEnc
  /-- `CT.DEC`, `0x08`, where `HAS_FRAMER = 1` (43_container.md R222). -/
  | ctDec
  /-- `MOV`, `0x09` (44_control.md R244). -/
  | mov
  /-- `CLR`, `0x0F` (44_control.md R242). -/
  | clr
  /-- `RESERVED.CMD`: a command word that is none of the above (30_encoding.md R101). -/
  | reservedCmd (c : Byte)
  /-- `REP len, val`, a repeat record (30_encoding.md R108, 42_rc.md R190). -/
  | rep (len : BitVec 7) (val : Byte)
  /-- `RAW len: lits`, a raw record; `len` is the number of literals (30_encoding.md R109, 42_rc.md R191). -/
  | raw (lits : List Byte)
  /-- `HDR.STORE`, the container header 0 (30_encoding.md R114, 43_container.md R219). -/
  | hdrStore
  /-- `HDR.COMP`, a container header `h` other than 0 (30_encoding.md R114, 43_container.md R219). -/
  | hdrComp (h : Word32)
  deriving DecidableEq, Repr

/-- Where an instruction's bits stand: written to `CMD`, at a record position of a run-coded stream, or at the start
of a container (30_encoding.md: "Three things are encoded in bits"). The same bits mean different things in each. -/
inductive Space where
  | command
  | record
  | header
  deriving DecidableEq, Repr

/-- The place an instruction is read from. -/
def Instr.space : Instr → Space
  | .nop => .command
  | .bstFwd => .command
  | .bstInv => .command
  | .rrtFwd => .command
  | .rrtInv => .command
  | .rcEnc => .command
  | .rcDec => .command
  | .ctEnc => .command
  | .ctDec => .command
  | .mov => .command
  | .clr => .command
  | .reservedCmd _ => .command
  | .rep _ _ => .record
  | .raw _ => .record
  | .hdrStore => .header
  | .hdrComp _ => .header

end Sys2Proof
end

