-- ==== Sys2Proof/Machine/State.lean ====
section
/-! DEFINITION. The state of the block (10_state.md R30), the host's actions (20_memory.md R72), what stops a step, and
the state after reset (70_reset_and_hazards.md R300). -/

namespace Sys2Proof.Machine

/-- The status field `ST` (10_state.md R37). -/
inductive Status where
  /-- 0: no result since reset or `CLR`. -/
  | idle
  /-- 1: a command is running. -/
  | busy
  /-- 2: the last command other than `NOP` completed without error. -/
  | done
  /-- 3: the last command failed. -/
  | error
  deriving DecidableEq, Repr

/-- The error code `ERR` (10_state.md R38). -/
inductive ErrCode where
  /-- 0. -/
  | none
  /-- 1 (60_exceptions.md R261). -/
  | invalidIndex
  /-- 2 (60_exceptions.md R262). -/
  | truncatedData
  /-- 3 (60_exceptions.md R263). -/
  | capacity
  /-- 4 (60_exceptions.md R264). -/
  | illegalCommand
  deriving DecidableEq, Repr

/-- The contents of a buffer: the bytes that hold a specified value, by rising index, each index at most once. An
index that is not listed holds an unspecified byte (00_scope.md R20), so what it reads as is no value (log 4). -/
abbrev Memory := List Host.Cell

/-- The registers a host may write (20_memory.md R72). -/
inductive WritableReg where
  | ilen
  | idx
  deriving DecidableEq, Repr

/-- The registers a host may read (20_memory.md R72). -/
inductive ReadableReg where
  | ilen
  | olen
  | idx
  | st
  | err
  deriving DecidableEq, Repr

/-- The actions of the host (20_memory.md R72). -/
inductive HostAction where
  /-- `HostWriteIBUF(i, b)`. -/
  | writeIBuf (i : Nat) (b : Byte)
  /-- `HostReadIBUF(i)`. -/
  | readIBuf (i : Nat)
  /-- `HostReadOBUF(i)`. -/
  | readOBuf (i : Nat)
  /-- `HostWriteReg(r, v)`. -/
  | writeReg (r : WritableReg) (v : Word32)
  /-- `HostReadReg(r)`. -/
  | readReg (r : ReadableReg)
  /-- `HostCommand(c)`. -/
  | command (c : Byte)
  /-- `HostReset`. -/
  | reset
  deriving DecidableEq, Repr

/-- What a read returns to the host (20_memory.md R72), at the width of what was read. -/
inductive Reply where
  /-- A byte of a buffer. -/
  | byte (b : Byte)
  /-- `ILEN`, `OLEN` or `IDX`. -/
  | word (v : Word32)
  /-- `ST`, 2 bits (10_state.md R37). -/
  | status (v : BitVec 2)
  /-- `ERR`, 3 bits (10_state.md R38). -/
  | error (v : BitVec 3)
  deriving DecidableEq, Repr

/-- Which scan the engine is in while a command runs (log 7). -/
inductive ScanKind where
  /-- `RC.DEC`: the records of `src`, from `q` on (42_rc.md R192). -/
  | stream
  /-- `CT.DEC` before its header: `src` is the container (43_container.md R219). -/
  | header
  /-- `CT.DEC` after a compressed header: `src` is the payload (43_container.md R219). -/
  | container
  deriving DecidableEq, Repr

/-- The working state of a record scan (42_rc.md R190 to R192; 10_state.md R36, R45). It has a meaning inside one
command only (10_state.md R40). -/
structure Work where
  kind : ScanKind
  /-- `B`, the stream that is scanned. -/
  src : List Byte
  /-- `q`, the index of the next header byte. -/
  q : Nat
  /-- `Y[0..o)`, the output so far; `o` is its length. -/
  out : List Byte
  /-- `idxw`, the primary index `CT.DEC` read from the header (10_state.md R45). -/
  idxw : Word32
  deriving DecidableEq, Repr

/-- The working state between commands: discarded (10_state.md R40). No command reads it (DESIGN CHOICE, log 6). -/
def Work.discarded : Work where
  kind := .stream
  src := []
  q := 0
  out := []
  idxw := 0

/-- The whole state. `ilen` to `obuf` are 10_state.md R30's table; `work` is the working state a record or header
instruction acts on; `cfg`, `script`, `reply` and `draws` are the model's own (logs 1 to 4). -/
structure State where
  /-- The instance's parameters; no step changes them. -/
  cfg : Config
  /-- `ILEN` (R31). -/
  ilen : Word32
  /-- `OLEN` (R32). -/
  olen : Word32
  /-- `IDX` (R33). -/
  idx : Word32
  /-- `ST` (R37). -/
  st : Status
  /-- `ERR` (R38). -/
  err : ErrCode
  /-- `IBUF` (R46). -/
  ibuf : Memory
  /-- `OBUF` (R47). -/
  obuf : Memory
  /-- The working state of a record scan (R40, R45). -/
  work : Work
  /-- The host's actions still to come, oldest first (R50; log 2). -/
  script : List HostAction
  /-- What the host's latest read returned (log 3). -/
  reply : Option Reply
  /-- The number of the next draw of unspecified bytes (log 4). -/
  draws : Nat
  deriving DecidableEq, Repr

/-- Nothing stops the block: every error of 60_exceptions.md R260 is a next state (R266). So there is no fault. -/
inductive Fault where
  deriving DecidableEq, Repr

/-- What the model refuses to give a meaning to. -/
inductive Refusal where
  /-- Raised by `exec` for an instruction that has no meaning yet. Safe: no run goes on. No arm raises it. -/
  | notModelled (mnemonic : String)
  /-- Raised by a host access to a buffer index at or above `NMAX`: "An action whose precondition fails has no
  meaning: the model refuses it" (20_memory.md R72). Safe. -/
  | bufferIndexOutOfRange
  /-- Raised by a command or a host access while `ST = BUSY`: "this spec gives such an access no meaning ... A model
  refuses it" (20_memory.md R87, 60_exceptions.md R270). Safe. -/
  | accessWhileBusy
  deriving DecidableEq, Repr

/-- The state after reset of an instance (70_reset_and_hazards.md R300, 10_state.md R49): registers 0, `ST = IDLE`,
`ERR = NONE`, every byte of both buffers unspecified. -/
def State.resetOf (cfg : Config) : State where
  cfg := cfg
  ilen := 0
  olen := 0
  idx := 0
  st := .idle
  err := .none
  ibuf := []
  obuf := []
  work := Work.discarded
  script := []
  reply := none
  draws := 0

/-- The machine right after reset, for the instance `Config.standard` (log 1). -/
def State.reset : State := State.resetOf Config.standard

end Sys2Proof.Machine
end

