-- ==== Sys2Proof/Machine/Flags.lean ====
section
/-! DEFINITION. The only flags, `ST` and `ERR` (10_state.md R37 to R39): their codes and the three ways a command
writes them. -/

namespace Sys2Proof.Machine

/-- The 2-bit value of `ST` (10_state.md R37). -/
def Status.code : Status → BitVec 2
  | .idle => 0
  | .busy => 1
  | .done => 2
  | .error => 3

/-- The 3-bit value of `ERR` (10_state.md R38). -/
def ErrCode.code : ErrCode → BitVec 3
  | .none => 0
  | .invalidIndex => 1
  | .truncatedData => 2
  | .capacity => 3
  | .illegalCommand => 4

/-- `ST <- DONE; ERR <- NONE` (10_state.md R39). -/
def State.setDone (s : State) : State := { s with st := .done, err := .none }

/-- `ST <- IDLE; ERR <- NONE` (44_control.md R242). -/
def State.setIdle (s : State) : State := { s with st := .idle, err := .none }

/-- `ST <- ERROR; ERR <- code(E)` (60_exceptions.md R266). -/
def State.setError (e : ErrCode) (s : State) : State := { s with st := .error, err := e }

end Sys2Proof.Machine
end

