-- ==== Sys2Proof/Machine/Ops.lean ====
section
/-! DEFINITION. The operations every instruction and host action goes through: one byte of a buffer, the gate of the
status machine, error entry and the way out of it, reset. -/

namespace Sys2Proof.Machine

/-! ### Buffers (20_memory.md R70, R76) -/

/-- The specified value of the byte at an index, if it has one. -/
def Memory.read : Memory → Nat → Option Byte
  | [], _ => none
  | (a, b) :: m, i => if i = a then some b else Memory.read m i

/-- `m[i] <- b`: "a buffer write changes only the addressed byte" (20_memory.md R76). Keeps the canonical form. -/
def Memory.write : Memory → Nat → Byte → Memory
  | [], i, b => [(i, b)]
  | (a, c) :: m, i, b =>
    if i < a then (i, b) :: (a, c) :: m
    else if i = a then (i, b) :: m
    else (a, c) :: Memory.write m i b

/-- The bytes at `i`, `i + 1`, ... (00_scope.md R17, 20_memory.md R73: a stream is in index order). -/
def Memory.writeBytes : Memory → Nat → List Byte → Memory
  | m, _, [] => m
  | m, i, b :: bs => Memory.writeBytes (Memory.write m i b) (i + 1) bs

/-- A buffer that holds the bytes at `i`, `i + 1`, ... and is unspecified elsewhere. -/
def Memory.ofBytes : Nat → List Byte → Memory
  | _, [] => []
  | i, b :: bs => (i, b) :: Memory.ofBytes (i + 1) bs

/-- Every listed index is at least `lo`, and they rise strictly. -/
def Memory.risingFrom : Nat → Memory → Bool
  | _, [] => true
  | lo, (a, _) :: m => decide (lo ≤ a) && Memory.risingFrom (a + 1) m

/-- The canonical form: indices strictly rising. An unlisted index reads as no value, so no listed entry equals it. -/
def Memory.wf (m : Memory) : Bool := Memory.risingFrom 0 m

/-- Every listed index is below `n`. -/
def Memory.within (n : Nat) (m : Memory) : Bool := m.all fun c => decide (c.1 < n)

/-- What a read of index `i` returns: its value, or, where the byte is unspecified, the free value of this draw
(20_memory.md R72: "returns any value, and two such reads may differ"). -/
def State.drawByte (s : State) (m : Memory) (i : Nat) : Byte :=
  match Memory.read m i with
  | some b => b
  | none => Config.freeByte s.draws i

/-- The next read of unspecified bytes is a new draw. -/
def State.nextDraw (s : State) : State := { s with draws := s.draws + 1 }

/-! ### Errors (60_exceptions.md R266, R271) -/

/-- Error entry (60_exceptions.md R266): `ST <- ERROR; ERR <- code(E); OLEN <- 0`, every byte of `OBUF` unspecified,
the working state discarded; `IBUF`, `ILEN`, `IDX` as before. -/
def State.raise (e : ErrCode) (s : State) : State :=
  { s.setError e with olen := 0, obuf := [], work := Work.discarded }

/-- Leaving the error state (60_exceptions.md R271): "`CLR` restores nothing: there is nothing saved to restore". -/
def State.clearError (s : State) : State := s.setIdle

/-! ### The gate of the status machine (60_exceptions.md R270) -/

/-- A command other than `NOP` and `CLR`: it runs in `IDLE` and `DONE`, is ignored in `ERROR` (the whole state stays
as it was), and has no meaning in `BUSY` (20_memory.md R87). -/
def whenAccepting (run : State → State) (s : State) : Host.Outcome State Fault Refusal :=
  match s.st with
  | .idle => .next (run s)
  | .done => .next (run s)
  | .error => .next s
  | .busy => .refused .accessWhileBusy

/-- `NOP` and `CLR`: accepted in `IDLE`, `DONE` and `ERROR`; no meaning in `BUSY`. -/
def unlessBusy (run : State → State) (s : State) : Host.Outcome State Fault Refusal :=
  match s.st with
  | .idle => .next (run s)
  | .done => .next (run s)
  | .error => .next (run s)
  | .busy => .refused .accessWhileBusy

/-! ### Reset (70_reset_and_hazards.md R300) -/

/-- `HostReset`: the state of R300, whatever went before (R301). The host's remaining script, its latest reply and
the number of draws made are the model's own and stay (log 2). -/
def State.hardReset (s : State) : State :=
  { State.resetOf s.cfg with script := s.script, reply := s.reply, draws := s.draws }

end Sys2Proof.Machine
end

