-- ==== Sys2Proof/Machine/Operands.lean ====
section
/-! DEFINITION. The implicit operands of a command (30_encoding.md R102): the input stream `IBUF[0..ILEN)`, the output
stream `OBUF[0..OLEN)`, and how a command delivers its result. -/

namespace Sys2Proof.Machine

/-- The first `n` bytes of a buffer. -/
def State.streamOf (s : State) (m : Memory) (n : Nat) : List Byte :=
  (List.range n).map fun i => s.drawByte m i

/-- The input stream `IBUF[0..ILEN)` (10_state.md R31, R46). -/
def State.input (s : State) : List Byte := s.streamOf s.ibuf s.ilen.toNat

/-- The output stream `OBUF[0..OLEN)` (10_state.md R32, R47). -/
def State.output (s : State) : List Byte := s.streamOf s.obuf s.olen.toNat

/-- The end of a command with result `Y`: `Capacity` where it does not fit (60_exceptions.md R263); else
`OBUF[i] <- Y[i]`, `OLEN <- len(Y)`, `ST <- DONE`, `ERR <- NONE`. `OBUF` at and above `OLEN` is unspecified
(10_state.md R47); the working state is discarded (R40). -/
def State.deliver (Y : List Byte) (s : State) : State :=
  if s.cfg.nmax < Y.length then s.raise .capacity
  else
    { s.setDone with
      obuf := Memory.ofBytes 0 Y
      olen := BitVec.ofNat 32 Y.length
      work := Work.discarded }

/-- The end of a command whose stage function gave a result or an error (00_scope.md R19). -/
def State.conclude (r : Except ErrCode (List Byte)) (s : State) : State :=
  match r with
  | .ok Y => s.deliver Y
  | .error e => s.raise e

/-- What every transform command does first when it runs (60_exceptions.md R263, R268 (2)): `Capacity` when
`ILEN > NMAX`, before anything is read; else `run` on the input stream. -/
def State.withInput (run : List Byte → State → State) (s : State) : State :=
  if s.cfg.nmax < s.ilen.toNat then s.raise .capacity
  else run s.input s.nextDraw

end Sys2Proof.Machine
end

