-- ==== Sys2Proof/Machine/Bst.lean ====
section
/-! DEFINITION. The Block-Sort Transform (40_bst.md): `BstFwd`, `BstInv`, and the commands `BST.FWD`, `BST.INV`. -/

namespace Sys2Proof.Machine

/-! ### Forward -/

/-- Rotation `a` of `X`, for `a < len(X)` (40_bst.md R130): its position `i` is `X[(a + i) mod n]`. -/
def rotation (X : List Byte) (a : Nat) : List Byte := X.drop a ++ X.take a

/-- The comparison of two rotations: by their first unequal byte, as unsigned numbers (40_bst.md R131, R132). -/
def compareBytes : List Byte → List Byte → Ordering
  | x :: xs, y :: ys =>
    if x.toNat < y.toNat then .lt else if y.toNat < x.toNat then .gt else compareBytes xs ys
  | [], [] => .eq
  | [], _ :: _ => .lt
  | _ :: _, [] => .gt

/-- `a` sorts before `b` (40_bst.md R132), or is `b`: by rotation, and equal rotations by offset. -/
def sortsUpTo (X : List Byte) (a b : Nat) : Bool :=
  match compareBytes (rotation X a) (rotation X b) with
  | .lt => true
  | .gt => false
  | .eq => decide (a ≤ b)

/-- Puts an offset into a sorted arrangement. -/
def insertOffset (X : List Byte) (a : Nat) : List Nat → List Nat
  | [] => [a]
  | b :: bs => if sortsUpTo X a b then a :: b :: bs else b :: insertOffset X a bs

/-- `ROT`: the offsets `0 .. n-1` in sorted order (40_bst.md R133; 10_state.md R44). The order is total, so the
arrangement is unique and the method of sorting is free (R138). -/
def rot (X : List Byte) : List Nat := (List.range X.length).foldr (insertOffset X) []

/-- The byte before rotation `r` (40_bst.md R134): `X[r - 1]`, or `X[n - 1]` when `r = 0`. -/
def byteBefore (X : List Byte) (r : Nat) : Byte :=
  if 0 < r then X.getD (r - 1) 0 else X.getD (X.length - 1) 0

/-- `BstFwd(X)` (40_bst.md R134): the transformed bytes and the primary index, the sorted position of offset 0. For
the empty input the index is 0 (R135). -/
def bstFwd (X : List Byte) : List Byte × Nat :=
  let order := rot X
  (order.map (byteBefore X), order.idxOf 0)

/-! ### Inverse -/

/-- `CNT[v]`: how often `v` occurs (40_bst.md R140; 10_state.md R42). -/
def cnt (T : List Byte) (v : Nat) : Nat := T.countP fun b => b.toNat == v

/-- `START[v]`, the C table: the sum of the counts of all smaller values (40_bst.md R140). -/
def startOf (T : List Byte) (v : Nat) : Nat := ((List.range v).map (cnt T)).sum

/-- `MAP[j]` for the positions from `seen.length` on, where `seen` holds the bytes before them in reverse order; the
count of `v` in `seen` is `OCC[v]` (40_bst.md R141). -/
def lfMapFrom (T : List Byte) : List Byte → List Byte → List Nat
  | _, [] => []
  | seen, v :: rest => (startOf T v.toNat + cnt seen v.toNat) :: lfMapFrom T (v :: seen) rest

/-- `MAP`, the mapping vector (40_bst.md R141; 10_state.md R43). -/
def lfMap (T : List Byte) : List Nat := lfMapFrom T [] T

/-- The backward walk (40_bst.md R143): `k` more bytes, the last one first, before the bytes already found. `cur`
stays below `n` (R144), so the default of `getD` is never taken (log 9). -/
def walkBack (T : List Byte) (map : List Nat) : Nat → Nat → List Byte → List Byte
  | 0, _, found => found
  | k + 1, cur, found => walkBack T map k (map.getD cur 0) (T.getD cur 0 :: found)

/-- `BstInv(T, idx0)` (40_bst.md R139 to R143): the index check, then the walk of exactly `n` bytes. -/
def bstInv (T : List Byte) (idx0 : Nat) : Except ErrCode (List Byte) :=
  if T.length = 0 then
    if idx0 ≠ 0 then .error .invalidIndex else .ok []
  else if T.length ≤ idx0 then .error .invalidIndex
  else .ok (walkBack T (lfMap T) T.length idx0 [])

/-! ### Commands -/

/-- `BST.FWD` (40_bst.md R136). -/
def execBstFwd (s : State) : Host.Outcome State Fault Refusal :=
  whenAccepting (State.withInput fun X s =>
    { s.deliver (bstFwd X).1 with idx := BitVec.ofNat 32 (bstFwd X).2 }) s

/-- `BST.INV` (40_bst.md R142). -/
def execBstInv (s : State) : Host.Outcome State Fault Refusal :=
  whenAccepting (State.withInput fun T s => s.conclude (bstInv T s.idx.toNat)) s

end Sys2Proof.Machine
end

