-- ==== Sys2Proof/WellFormed.lean ====
section
/-! DEFINITION. Which terms of `Instr` stand for bits the spec gives that meaning to. -/

namespace Sys2Proof

/-- 30_encoding.md R101: the high nibble is not zero, or the operation code is `0x0A` to `0x0E`, or it is `0x07` or
`0x08` and `HAS_FRAMER = 0`. -/
def reservedCode (hasFramer : Bool) (c : Byte) : Bool :=
  c.toNat / 16 != 0 || (10 ≤ c.toNat % 16 && c.toNat % 16 ≤ 14) ||
    (!hasFramer && (c.toNat % 16 == 7 || c.toNat % 16 == 8))

/-- The check: the framer's commands exist only with the framer (R12), a reserved command carries a reserved word
(R101), a raw record has at most 127 literals (R109), a compressed header is not 0 (R114). -/
def Instr.wf (hasFramer : Bool) : Instr → Bool
  | .nop => true
  | .bstFwd => true
  | .bstInv => true
  | .rrtFwd => true
  | .rrtInv => true
  | .rcEnc => true
  | .rcDec => true
  | .ctEnc => hasFramer
  | .ctDec => hasFramer
  | .mov => true
  | .clr => true
  | .reservedCmd c => reservedCode hasFramer c
  | .rep _ _ => true
  | .raw lits => decide (lits.length ≤ Config.runCap)
  | .hdrStore => true
  | .hdrComp h => decide (h ≠ 0)

end Sys2Proof
end

