-- ==== Sys2Proof/Decode.lean ====
section
/-! DEFINITION. From bits to instructions and back (30_encoding.md): the command word, the records of a run-coded
stream, the container header. Decoding is total; what it cannot read it rejects by name. -/

namespace Sys2Proof

/-- Why bytes do not hold an instruction. -/
inductive Reject where
  /-- There is no byte at all. -/
  | noBytes
  /-- A repeat header with no value byte after it (42_rc.md R190, R194 (a)). -/
  | missingValueByte
  /-- A raw header with fewer literals after it than it announces (42_rc.md R191, R194 (b)). -/
  | missingLiterals
  /-- Fewer than four bytes where a container header should stand (43_container.md R220). -/
  | shortHeader
  deriving DecidableEq, Repr

/-! ### The command word -/

/-- The decoding of a command word, total on the 256 words (30_encoding.md R100, R101). -/
def decodeCommand (hasFramer : Bool) (c : Byte) : Instr :=
  if c.extractLsb' 4 4 ≠ 0 then .reservedCmd c
  else
    match (c.extractLsb' 0 4).toNat with
    | 0x0 => .nop
    | 0x1 => .bstFwd
    | 0x2 => .bstInv
    | 0x3 => .rrtFwd
    | 0x4 => .rrtInv
    | 0x5 => .rcEnc
    | 0x6 => .rcDec
    | 0x7 => if hasFramer then .ctEnc else .reservedCmd c
    | 0x8 => if hasFramer then .ctDec else .reservedCmd c
    | 0x9 => .mov
    | 0xF => .clr
    | _ => .reservedCmd c

/-! ### Byte order -/

/-- `be32(v)`: the four bytes of `v`, most significant first (00_scope.md R18). -/
def be32 (v : Word32) : List Byte :=
  [v.extractLsb' 24 8, v.extractLsb' 16 8, v.extractLsb' 8 8, v.extractLsb' 0 8]

/-- `unbe32(b0, b1, b2, b3) = b0*2^24 + b1*2^16 + b2*2^8 + b3` (00_scope.md R18). -/
def unbe32 (b0 b1 b2 b3 : Byte) : Word32 :=
  BitVec.ofNat 32 (b0.toNat * 2 ^ 24 + b1.toNat * 2 ^ 16 + b2.toNat * 2 ^ 8 + b3.toNat)

/-! ### Records and headers -/

/-- Bit 7 of a record's header byte: set for a repeat record (30_encoding.md R106). -/
def headerIsRepeat (h : Byte) : Bool := h.getLsbD 7

/-- `h[6:0] = h & 0x7F`, the length field (30_encoding.md R106). -/
def headerLen (h : Byte) : BitVec 7 := h.extractLsb' 0 7

/-- The record at the front of a stream, and the stream after it (30_encoding.md R106 to R110). -/
def decodeRecord : List Byte → Except Reject (Instr × List Byte)
  | [] => .error .noBytes
  | h :: rest =>
    if headerIsRepeat h then
      match rest with
      | [] => .error .missingValueByte
      | v :: rest' => .ok (.rep (headerLen h) v, rest')
    else if rest.length < (headerLen h).toNat then .error .missingLiterals
    else .ok (.raw (rest.take (headerLen h).toNat), rest.drop (headerLen h).toNat)

/-- The header at the front of a container, and the payload (30_encoding.md R113, R114). -/
def decodeHeader : List Byte → Except Reject (Instr × List Byte)
  | b0 :: b1 :: b2 :: b3 :: payload =>
    let h := unbe32 b0 b1 b2 b3
    .ok (if h = 0 then .hdrStore else .hdrComp h, payload)
  | _ => .error .shortHeader

/-- The instruction at the front of a sequence of bytes that stands in the given place, and the bytes after it. -/
def decode (hasFramer : Bool) : Space → List Byte → Except Reject (Instr × List Byte)
  | .command, [] => .error .noBytes
  | .command, c :: rest => .ok (decodeCommand hasFramer c, rest)
  | .record, bs => decodeRecord bs
  | .header, bs => decodeHeader bs

/-! ### The encoder -/

/-- The bytes of an instruction, from the tables of 30_encoding.md R100, R108, R109, R113, R114. -/
def encode : Instr → List Byte
  | .nop => [0x00#8]
  | .bstFwd => [0x01#8]
  | .bstInv => [0x02#8]
  | .rrtFwd => [0x03#8]
  | .rrtInv => [0x04#8]
  | .rcEnc => [0x05#8]
  | .rcDec => [0x06#8]
  | .ctEnc => [0x07#8]
  | .ctDec => [0x08#8]
  | .mov => [0x09#8]
  | .clr => [0x0F#8]
  | .reservedCmd c => [c]
  | .rep len val => [0x80#8 ||| len.setWidth 8, val]
  | .raw lits => BitVec.ofNat 8 lits.length :: lits
  | .hdrStore => [0x00#8, 0x00#8, 0x00#8, 0x00#8]
  | .hdrComp h => be32 h

/-! ### The opcode table's words -/

/-- Which place a word of spec/opcode_table.json is read from, told by its width (log 8): 32 bits are a container
header; 8 bits are a command word, but for a word with bit 7 set, which no command row of the table has and the REP row
fixes; any other width is a record. -/
def tableSpace (nbits w : Nat) : Space :=
  if nbits = 32 then .header
  else if nbits = 8 ∧ w % 256 < 128 then .command
  else .record

/-- The bytes of a word whose first byte is its bits 7..0 and whose `k`-th byte is its bits `8k+7 .. 8k`. -/
def tableBytes (nbits w : Nat) : List Byte :=
  (List.range (nbits / 8)).map fun k => BitVec.ofNat 8 (w / 2 ^ (8 * k))

/-- The operand bytes of zeros that follow a table word: a raw record has at most 127 literals. -/
def tablePadding : List Byte := List.replicate Config.runCap 0#8

/-- The instruction the decoder reads from a word of the opcode table (with the framer present, the default of
00_scope.md R12). -/
def decodeTableWord (nbits w : Nat) : Option Instr :=
  match decode true (tableSpace nbits w) (tableBytes nbits w ++ tablePadding) with
  | .ok (i, _) => some i
  | .error _ => none

end Sys2Proof
end

