-- ==== Sys2Proof/Machine/Rc.lean ====
section
/-! DEFINITION. The Run Codec (42_rc.md): `RcEnc`, `RcDec`, `RcDecScan`, the commands `RC.ENC`, `RC.DEC` and the
records `REP`, `RAW`. The encoder works on the suffix `S[p..n)`, so its cursor `p` is that suffix. -/

namespace Sys2Proof.Machine

/-! ### Encoder -/

/-- How many values at the front equal `v`, counting at most `cap`. -/
def runOf (v : Byte) : Nat → List Byte → Nat
  | 0, _ => 0
  | _ + 1, [] => 0
  | cap + 1, x :: xs => if x = v then runOf v cap xs + 1 else 0

/-- `Run(S, p)` on the suffix from `p` (42_rc.md R181): the run of its first value, capped at 127; 0 on an empty
suffix, where the spec forms no run. -/
def runLen : List Byte → Nat
  | [] => 0
  | v :: S => runOf v Config.runCap (v :: S)

/-- Whether the next three values are there and form a run (42_rc.md R182). -/
def runOfThreeStarts : List Byte → Bool
  | a :: b :: c :: _ => decide (a = b) && decide (b = c)
  | _ => false

/-- `Lit(S, p)` on the suffix from `p`, with `cap - k` values still allowed (42_rc.md R182). -/
def litOf : Nat → List Byte → Nat
  | 0, _ => 0
  | _ + 1, [] => 0
  | cap + 1, x :: xs => if runOfThreeStarts (x :: xs) then 0 else litOf cap xs + 1

/-- `Lit(S, p)` (42_rc.md R182): the literal segment at the front, at most 127 values. -/
def litLen (S : List Byte) : Nat := litOf Config.runCap S

/-- The records of `RcEnc` (42_rc.md R183), at most `fuel` of them. Each takes at least one value, so `len(S)` of
fuel is enough. -/
def rcRecordsFrom : Nat → List Byte → List Instr
  | 0, _ => []
  | _ + 1, [] => []
  | fuel + 1, v :: S =>
    if 2 < runLen (v :: S) then
      .rep (BitVec.ofNat 7 (runLen (v :: S))) v :: rcRecordsFrom fuel ((v :: S).drop (runLen (v :: S)))
    else
      .raw ((v :: S).take (litLen (v :: S))) :: rcRecordsFrom fuel ((v :: S).drop (litLen (v :: S)))

/-- The records `RcEnc(S)` emits, in order (42_rc.md R183). -/
def rcRecords (S : List Byte) : List Instr := rcRecordsFrom S.length S

/-- `RcEnc(S)` (42_rc.md R183): the bytes of its records. -/
def rcEnc (S : List Byte) : List Byte := (rcRecords S).flatMap encode

/-! ### Records -/

/-- What a record appends to the output (42_rc.md R190, R191); an instruction that is no record appends nothing. -/
def recordOutput : Instr → List Byte
  | .rep len val => List.replicate len.toNat val
  | .raw lits => lits
  | .nop => []
  | .bstFwd => []
  | .bstInv => []
  | .rrtFwd => []
  | .rrtInv => []
  | .rcEnc => []
  | .rcDec => []
  | .ctEnc => []
  | .ctDec => []
  | .mov => []
  | .clr => []
  | .reservedCmd _ => []
  | .hdrStore => []
  | .hdrComp _ => []

/-- Whether `add` more bytes pass the capacity, if there is one (42_rc.md R190, R191: `o + len > NMAX`). -/
def overCapacity (cap : Option Nat) (o add : Nat) : Bool :=
  match cap with
  | none => false
  | some n => decide (n < o + add)

/-! ### Decoder -/

/-- The decode scan from the rest of a stream on, with `out` already delivered and at most `fuel` records (42_rc.md
R192). A record that ends too early is `TruncatedData`; that test comes before the capacity test. -/
def rcScanFrom (cap : Option Nat) : Nat → List Byte → List Byte → Except ErrCode (List Byte)
  | _, [], out => .ok out
  | 0, _ :: _, out => .ok out
  | fuel + 1, b :: bs, out =>
    match decodeRecord (b :: bs) with
    | .error _ => .error .truncatedData
    | .ok (i, rest) =>
      if overCapacity cap out.length (recordOutput i).length then .error .capacity
      else rcScanFrom cap fuel rest (out ++ recordOutput i)

/-- `RcDecScan(B)` with the capacity `NMAX` (42_rc.md R192). Each record takes at least one byte, so `len(B)` of fuel
is enough. -/
def rcDecScan (nmax : Nat) (B : List Byte) : Except ErrCode (List Byte) := rcScanFrom (some nmax) B.length B []

/-- `RcDec(B)`: the scan "with the capacity tests left out" (42_rc.md R192). -/
def rcDec (B : List Byte) : Except ErrCode (List Byte) := rcScanFrom none B.length B []

/-! ### Commands -/

/-- `RC.ENC` (42_rc.md R184). -/
def execRcEnc (s : State) : Host.Outcome State Fault Refusal :=
  whenAccepting (State.withInput fun S s => s.deliver (rcEnc S)) s

/-- `RC.DEC` (42_rc.md R193), all of its records in one step. -/
def execRcDec (s : State) : Host.Outcome State Fault Refusal :=
  whenAccepting (State.withInput fun B s => s.conclude (rcDecScan s.cfg.nmax B)) s

/-- A record whose bytes are all there, as the decoder executes it (42_rc.md R190, R191): `Capacity` where its output
does not fit, else the output is appended and the cursor moves past the record's `width` bytes. -/
def State.runRecord (bytes : List Byte) (width : Nat) (s : State) : State :=
  if overCapacity (some s.cfg.nmax) s.work.out.length bytes.length then s.raise .capacity
  else { s with work := { s.work with out := s.work.out ++ bytes, q := s.work.q + width } }

/-- `REP len, val` (42_rc.md R190): `q <- q + 2`. -/
def execRep (len : BitVec 7) (val : Byte) (s : State) : Host.Outcome State Fault Refusal :=
  .next (s.runRecord (List.replicate len.toNat val) 2)

/-- `RAW len: lits` (42_rc.md R191): `q <- q + 1 + len`. -/
def execRaw (lits : List Byte) (s : State) : Host.Outcome State Fault Refusal :=
  .next (s.runRecord lits (1 + lits.length))

end Sys2Proof.Machine
end

