-- ==== Sys2Proof/Machine/Rrt.lean ====
section
/-! DEFINITION. The Recency-Rank Transform (41_rrt.md): `RrtFwd`, `RrtInv`, and the commands `RRT.FWD`, `RRT.INV`. -/

namespace Sys2Proof.Machine

/-- `ALPHA` at the start of every call: `ALPHA[k] = k` (41_rrt.md R160; 10_state.md R41). -/
def initialAlpha : List Byte := (List.range Config.alphabetSize).map (BitVec.ofNat 8)

/-- `Mtf(k)` (41_rrt.md R161): the entry at `k` goes to the front, those before it move one place back. -/
def moveToFront (alpha : List Byte) (k : Nat) : List Byte := alpha.getD k 0 :: alpha.eraseIdx k

/-- The position of a byte in the list; there is exactly one (41_rrt.md R162). -/
def rankOf (alpha : List Byte) (b : Byte) : Nat := alpha.idxOf b

/-- `RrtFwd` from a list on (41_rrt.md R163): the rank is emitted before the move. -/
def rrtFwdFrom : List Byte → List Byte → List Byte
  | _, [] => []
  | alpha, b :: X => BitVec.ofNat 8 (rankOf alpha b) :: rrtFwdFrom (moveToFront alpha (rankOf alpha b)) X

/-- `RrtFwd(X)` (41_rrt.md R163): the rank stream, each rank as one byte (30_encoding.md R116). -/
def rrtFwd (X : List Byte) : List Byte := rrtFwdFrom initialAlpha X

/-- `RrtInv` from a list on, over unbounded numbers (41_rrt.md R165): the range check is made as the scan reaches an
element, the byte is emitted before the move, and rank 0 makes no move. -/
def rrtInvFrom : List Byte → List Nat → Except ErrCode (List Byte)
  | _, [] => .ok []
  | alpha, k :: R =>
    if 255 < k then .error .invalidIndex
    else
      match rrtInvFrom (if k ≠ 0 then moveToFront alpha k else alpha) R with
      | .ok Y => .ok (alpha.getD k 0 :: Y)
      | .error e => .error e

/-- `RrtInv(R)` (41_rrt.md R165). -/
def rrtInv (R : List Nat) : Except ErrCode (List Byte) := rrtInvFrom initialAlpha R

/-- `RrtInv` on a rank stream of bytes; the range check cannot fail (41_rrt.md R166). -/
def rrtInvBytes (R : List Byte) : Except ErrCode (List Byte) := rrtInv (R.map BitVec.toNat)

/-- `RRT.FWD` (41_rrt.md R163). -/
def execRrtFwd (s : State) : Host.Outcome State Fault Refusal :=
  whenAccepting (State.withInput fun X s => s.deliver (rrtFwd X)) s

/-- `RRT.INV` (41_rrt.md R167). -/
def execRrtInv (s : State) : Host.Outcome State Fault Refusal :=
  whenAccepting (State.withInput fun R s => s.conclude (rrtInvBytes R)) s

end Sys2Proof.Machine
end

