-- ==== Sys2Proof/Machine/Container.lean ====
section
/-! DEFINITION. The Container Framer (43_container.md): `CtEnc`, `CtDec`, the commands `CT.ENC`, `CT.DEC` and the headers
`HDR.STORE`, `HDR.COMP`. -/

namespace Sys2Proof.Machine

/-- A store-mode container: four zero bytes and the data (43_container.md R211). -/
def storeContainer (X : List Byte) : List Byte := encode .hdrStore ++ X

/-- The payload of compressed mode and the primary index: BST, then RRT, then RC (43_container.md R211). -/
def pipelineEnc (X : List Byte) : List Byte × Nat := (rcEnc (rrtFwd (bstFwd X).1), (bstFwd X).2)

/-- `CtEnc(X)` (43_container.md R211, R212). Lengths are compared as natural numbers (R213). -/
def ctEnc (bias : Nat) (X : List Byte) : List Byte :=
  if X.length < Config.storeThreshold then storeContainer X
  else if X.length ≤ (pipelineEnc X).1.length + Config.headerBytes then storeContainer X
  else be32 (BitVec.ofNat 32 ((pipelineEnc X).2 + bias)) ++ (pipelineEnc X).1

/-- What follows the RC step of `CtDec`: RRT inverse, then BST inverse (43_container.md R219). -/
def unrank (R : List Byte) (idx0 : Nat) : Except ErrCode (List Byte) :=
  match rrtInvBytes R with
  | .error e => .error e
  | .ok T => bstInv T idx0

/-- `CtDec(C)` (43_container.md R219 to R221). `h - HDR_BIAS` is formed for `h >= 1` only (30_encoding.md R121). -/
def ctDec (nmax bias : Nat) (C : List Byte) : Except ErrCode (List Byte) :=
  match C with
  | b0 :: b1 :: b2 :: b3 :: payload =>
    if (unbe32 b0 b1 b2 b3).toNat = 0 then .ok payload
    else
      match rcDecScan nmax payload with
      | .error e => .error e
      | .ok R => unrank R ((unbe32 b0 b1 b2 b3).toNat - bias)
  | _ => .error .truncatedData

/-! ### Commands -/

/-- The framer's commands without the framer are reserved (00_scope.md R12, 30_encoding.md R101). The decoder gives
them as `RESERVED.CMD` already; `exec` says the same of the bare constructors. -/
def State.withFramer (run : State → State) (s : State) : State :=
  if s.cfg.hasFramer then run s else s.raise .illegalCommand

/-- `CT.ENC` (43_container.md R214). -/
def execCtEnc (s : State) : Host.Outcome State Fault Refusal :=
  whenAccepting (State.withFramer (State.withInput fun X s => s.deliver (ctEnc s.cfg.hdrBias.val X))) s

/-- `CT.DEC` (43_container.md R222), header and records in one step. -/
def execCtDec (s : State) : Host.Outcome State Fault Refusal :=
  whenAccepting (State.withFramer (State.withInput fun C s =>
    s.conclude (ctDec s.cfg.nmax s.cfg.hdrBias.val C))) s

/-! ### Headers, inside `CT.DEC` -/

/-- `HDR.STORE` at the front of the container (43_container.md R219, R225): the rest is the output, verbatim. -/
def execHdrStore (s : State) : Host.Outcome State Fault Refusal :=
  .next (s.deliver (s.work.src.drop Config.headerBytes))

/-- `HDR.COMP h` at the front of the container (43_container.md R219): `idx0 <- h - HDR_BIAS`, kept in the working copy
`idxw`; the scan of the payload's records begins. -/
def execHdrComp (h : Word32) (s : State) : Host.Outcome State Fault Refusal :=
  .next { s with
    work :=
      { kind := .container
        src := s.work.src.drop Config.headerBytes
        q := 0
        out := []
        idxw := BitVec.ofNat 32 (h.toNat - s.cfg.hdrBias.val) } }

end Sys2Proof.Machine
end

