-- ==== Sys2Proof/Machine/Control.lean ====
section
/-! DEFINITION. The control commands `NOP`, `CLR`, `MOV` (44_control.md) and the reserved command words
(60_exceptions.md R264). -/

namespace Sys2Proof.Machine

/-- `NOP` (44_control.md R241): nothing, in every status. -/
def execNop (s : State) : Host.Outcome State Fault Refusal := unlessBusy (fun s => s) s

/-- `CLR` (44_control.md R242): `ST <- IDLE; ERR <- NONE`, and nothing else. -/
def execClr (s : State) : Host.Outcome State Fault Refusal := unlessBusy State.clearError s

/-- `MOV` (44_control.md R244): `IBUF[0..OLEN) <- OBUF[0..OLEN)`, `ILEN <- OLEN`. -/
def State.moveOutput (s : State) : State :=
  { s.setDone with
    ibuf := Memory.writeBytes s.ibuf 0 s.output
    ilen := s.olen
    draws := s.draws + 1 }

/-- `MOV` (44_control.md R244). -/
def execMov (s : State) : Host.Outcome State Fault Refusal := whenAccepting State.moveOutput s

/-- A reserved command word (60_exceptions.md R264): "Nothing is read or computed". -/
def execReservedCmd (_c : Byte) (s : State) : Host.Outcome State Fault Refusal :=
  whenAccepting (State.raise .illegalCommand) s

end Sys2Proof.Machine
end

