-- ==== Sys2Proof/Machine/Dispatch.lean ====
section
/-! DEFINITION. One arm per constructor of `Instr`. -/

namespace Sys2Proof.Machine

/-- What an instruction does. -/
def exec (i : Instr) (s : State) : Host.Outcome State Fault Refusal :=
  match i with
  | .nop => Sys2Proof.Machine.execNop s
  | .bstFwd => Sys2Proof.Machine.execBstFwd s
  | .bstInv => Sys2Proof.Machine.execBstInv s
  | .rrtFwd => Sys2Proof.Machine.execRrtFwd s
  | .rrtInv => Sys2Proof.Machine.execRrtInv s
  | .rcEnc => Sys2Proof.Machine.execRcEnc s
  | .rcDec => Sys2Proof.Machine.execRcDec s
  | .ctEnc => Sys2Proof.Machine.execCtEnc s
  | .ctDec => Sys2Proof.Machine.execCtDec s
  | .mov => Sys2Proof.Machine.execMov s
  | .clr => Sys2Proof.Machine.execClr s
  | .reservedCmd c => Sys2Proof.Machine.execReservedCmd c s
  | .rep len val => Sys2Proof.Machine.execRep len val s
  | .raw lits => Sys2Proof.Machine.execRaw lits s
  | .hdrStore => Sys2Proof.Machine.execHdrStore s
  | .hdrComp h => Sys2Proof.Machine.execHdrComp h s

end Sys2Proof.Machine
end

