-- ==== Sys2Proof/Machine/Engine.lean ====
section
/-! DEFINITION. The engine inside `RC.DEC` and `CT.DEC`, one instruction of the stream at a time (log 7). The host never
sees these states: a command is one atomic step (20_memory.md R76). They are what the cursor `q` "like a program
counter over a variable-length record stream" (10_state.md R36) steps through, and where the records and headers of the
opcode table are fetched. -/

namespace Sys2Proof.Machine

/-- The start of `RC.DEC` (42_rc.md R192): `q <- 0; o <- 0`, the stream is the input stream. -/
def State.beginRcDec (s : State) : State :=
  { s.nextDraw with
    st := .busy
    err := .none
    work := { kind := .stream, src := s.input, q := 0, out := [], idxw := 0 } }

/-- The start of `CT.DEC` (43_container.md R219): the header is next. -/
def State.beginCtDec (s : State) : State :=
  { s.nextDraw with
    st := .busy
    err := .none
    work := { kind := .header, src := s.input, q := 0, out := [], idxw := 0 } }

/-- One turn of the decode scan (42_rc.md R192): the record at `q` is fetched and executed; one that ends too early
raises `TruncatedData`; at the end of the stream the command finishes. -/
def recordTurn (finish : State → State) (s : State) : Host.Outcome State Fault Refusal :=
  if s.work.q < s.work.src.length then
    match decodeRecord (s.work.src.drop s.work.q) with
    | .ok (i, _) => exec i s
    | .error _ => .next (s.raise .truncatedData)
  else .next (finish s)

/-- The end of `RC.DEC` (42_rc.md R193). -/
def State.finishRcDec (s : State) : State := s.deliver s.work.out

/-- The end of `CT.DEC` in compressed mode (43_container.md R219, R222). -/
def State.finishCtDec (s : State) : State := s.conclude (unrank s.work.out s.work.idxw.toNat)

/-- One turn of the engine while a command runs. -/
def engineTurn (s : State) : Host.Outcome State Fault Refusal :=
  match s.work.kind with
  | .header =>
    match decodeHeader s.work.src with
    | .ok (i, _) => exec i s
    | .error _ => .next (s.raise .truncatedData)
  | .stream => recordTurn State.finishRcDec s
  | .container => recordTurn State.finishCtDec s

end Sys2Proof.Machine
end

