-- ==== Sys2Proof/Machine/HostPort.lean ====
section
/-! DEFINITION. What each action of the host does (20_memory.md R72), and the script notation of 30_encoding.md R118,
R120. -/

namespace Sys2Proof.Machine

/-- The actions that have a meaning while `ST = BUSY`: reading `ST` (93_implementation_defined.md U3) and reset
(70_reset_and_hazards.md R301). -/
def HostAction.allowedWhileBusy : HostAction → Bool
  | .writeIBuf _ _ => false
  | .readIBuf _ => false
  | .readOBuf _ => false
  | .writeReg _ _ => false
  | .readReg .st => true
  | .readReg .ilen => false
  | .readReg .olen => false
  | .readReg .idx => false
  | .readReg .err => false
  | .command _ => false
  | .reset => true

/-- Whether an action is outside its precondition on `ST` (20_memory.md R72, R87). -/
def HostAction.blocked (a : HostAction) (s : State) : Bool := decide (s.st = .busy) && !a.allowedWhileBusy

/-- `HostWriteIBUF(i, b)`: `IBUF[i] <- b`, for `i < NMAX` (20_memory.md R72). -/
def hostWriteIBuf (i : Nat) (b : Byte) (s : State) : Host.Outcome State Fault Refusal :=
  if i < s.cfg.nmax then .next { s with ibuf := Memory.write s.ibuf i b }
  else .refused .bufferIndexOutOfRange

/-- A read of one byte of a buffer, for `i < NMAX` (20_memory.md R72). -/
def hostReadBuf (m : Memory) (i : Nat) (s : State) : Host.Outcome State Fault Refusal :=
  if i < s.cfg.nmax then .next { s with reply := some (.byte (s.drawByte m i)), draws := s.draws + 1 }
  else .refused .bufferIndexOutOfRange

/-- `HostWriteReg(r, v)`: any value is accepted, also above `NMAX` (10_state.md R31). -/
def hostWriteReg (r : WritableReg) (v : Word32) (s : State) : State :=
  match r with
  | .ilen => { s with ilen := v }
  | .idx => { s with idx := v }

/-- The value of a register, as a read returns it. -/
def State.readReg (s : State) : ReadableReg → Reply
  | .ilen => .word s.ilen
  | .olen => .word s.olen
  | .idx => .word s.idx
  | .st => .status s.st.code
  | .err => .error s.err.code

/-- One action of the host (20_memory.md R72). -/
def hostAct (a : HostAction) (s : State) : Host.Outcome State Fault Refusal :=
  if a.blocked s then .refused .accessWhileBusy
  else
    match a with
    | .writeIBuf i b => hostWriteIBuf i b s
    | .readIBuf i => hostReadBuf s.ibuf i s
    | .readOBuf i => hostReadBuf s.obuf i s
    | .writeReg r v => .next (hostWriteReg r v s)
    | .readReg r => .next { s with reply := some (s.readReg r) }
    | .command c => exec (decodeCommand s.cfg.hasFramer c) s
    | .reset => .next s.hardReset

/-- Whether the next step is the host's: there is an action to come, and it may act now. While a command runs the
others wait for it (20_memory.md R87; log 7). -/
def State.hostTurn (s : State) : Bool :=
  match s.script with
  | [] => false
  | a :: _ => !a.blocked s

/-- The host's next action; with none to come "the block just stays as it is" (70_reset_and_hazards.md R313). -/
def hostStep (s : State) : Host.Outcome State Fault Refusal :=
  match s.script with
  | [] => .next s
  | a :: rest => hostAct a { s with script := rest }

/-! ### Script notation (30_encoding.md R118, R120) -/

/-- `HostWriteIBUF` of consecutive bytes from index `i` on. -/
def scriptWrites : Nat → List Byte → List HostAction
  | _, [] => []
  | i, b :: bs => .writeIBuf i b :: scriptWrites (i + 1) bs

/-- `LOAD <bytes>`: write the bytes to `IBUF[0..k)` and set `ILEN <- k`. -/
def scriptLoad (bytes : List Byte) : List HostAction :=
  scriptWrites 0 bytes ++ [.writeReg .ilen (BitVec.ofNat 32 bytes.length)]

/-- `SETIDX v`. -/
def scriptSetIdx (v : Word32) : List HostAction := [.writeReg .idx v]

/-- A sequence of commands, each written to `CMD` as its code. -/
def scriptCommands (is : List Instr) : List HostAction := (is.flatMap encode).map HostAction.command

/-- `PIPE.ENC` expands to `BST.FWD; MOV; RRT.FWD; MOV; RC.ENC`. -/
def scriptPipeEnc : List HostAction := scriptCommands [.bstFwd, .mov, .rrtFwd, .mov, .rcEnc]

/-- `PIPE.DEC` expands to `RC.DEC; MOV; RRT.INV; MOV; BST.INV`. -/
def scriptPipeDec : List HostAction := scriptCommands [.rcDec, .mov, .rrtInv, .mov, .bstInv]

end Sys2Proof.Machine
end

