-- ==== Sys2Proof/Machine/Step.lean ====
section
/-! DEFINITION. One step of the machine, and where a step finds an instruction. -/

namespace Sys2Proof.Machine

/-- One step: an action of the host (20_memory.md R72, "each is one step"), or a turn of the engine while a command
runs; with neither, the block stays as it is (70_reset_and_hazards.md R313). -/
def step (s : State) : Host.Outcome State Fault Refusal :=
  if s.hostTurn then hostStep s
  else if s.st = .busy then engineTurn s
  else .next s

/-- `s` with an instruction placed so that the very next step runs it (log 8). A command word is the host's next
action, written to `CMD`. A record or a header is the whole stream of a running command, with the cursor at 0, and no
host action comes before it. -/
def State.withFetchWord (s : State) (nbits w : Nat) : State :=
  match decodeTableWord nbits w with
  | none => s
  | some i =>
    match tableSpace nbits w with
    | .command =>
      { s with
        script := (encode i).map HostAction.command ++ s.script
        st := if s.st = .busy then .idle else s.st }
    | .record =>
      { s with
        script := s.script.dropWhile HostAction.allowedWhileBusy
        st := .busy
        work := { kind := .stream, src := encode i, q := 0, out := [], idxw := 0 } }
    | .header =>
      { s with
        script := s.script.dropWhile HostAction.allowedWhileBusy
        st := .busy
        work := { kind := .header, src := encode i, q := 0, out := [], idxw := 0 } }

end Sys2Proof.Machine
end

