-- ==== Sys2Proof/Safety.lean ====
section
/-! DEFINITION. What counts as a safe run, and the terms the statements use: the invariant of the machine, what a
command's success and its error leave behind, and the spec's own words for orders and streams. -/

namespace Sys2Proof.Machine

/-! ### Status -/

/-- `ST` is `IDLE` or `DONE`: a command runs (60_exceptions.md R270), and a run that ends so has succeeded
(70_reset_and_hazards.md R313). -/
abbrev State.Accepting (s : State) : Prop := s.st = .idle ∨ s.st = .done

/-- The host's next action, if there is one, waits while a command runs (20_memory.md R87). -/
def State.HostWaits (s : State) : Prop := ∀ a, s.script.head? = some a → a.allowedWhileBusy = false

/-- The transform commands (60_exceptions.md R270). -/
def isTransform : Instr → Bool
  | .bstFwd => true
  | .bstInv => true
  | .rrtFwd => true
  | .rrtInv => true
  | .rcEnc => true
  | .rcDec => true
  | .ctEnc => true
  | .ctDec => true
  | .nop => false
  | .mov => false
  | .clr => false
  | .reservedCmd _ => false
  | .rep _ _ => false
  | .raw _ => false
  | .hdrStore => false
  | .hdrComp _ => false

/-! ### The invariant -/

/-- What holds of every state a run reaches from reset. -/
structure State.Inv (s : State) : Prop where
  /-- `IBUF` is in canonical form. -/
  ibuf_wf : Memory.wf s.ibuf = true
  /-- `OBUF` is in canonical form. -/
  obuf_wf : Memory.wf s.obuf = true
  /-- `IBUF` has no byte at or above `NMAX` (20_memory.md R70). -/
  ibuf_within : Memory.within s.cfg.nmax s.ibuf = true
  /-- "Always `OLEN <= NMAX`" (10_state.md R32). -/
  olen_le : s.olen.toNat ≤ s.cfg.nmax
  /-- The specified bytes of `OBUF` are exactly `OBUF[0..OLEN)` (10_state.md R47). -/
  obuf_specified : ∀ i, (Memory.read s.obuf i).isSome = true ↔ i < s.olen.toNat
  /-- "`ERR != 0` exactly when `ST = ERROR`" (10_state.md R38). -/
  err_iff : s.err ≠ .none ↔ s.st = .error
  /-- After an error `OLEN` is 0 (10_state.md R32). -/
  error_olen : s.st = .error → s.olen = 0
  /-- Between commands the working state is discarded (10_state.md R40). -/
  work_discarded : s.st ≠ .busy → s.work = Work.discarded
  /-- The scanned stream is at most `NMAX` bytes long (20_memory.md R77). -/
  work_src : s.work.src.length ≤ s.cfg.nmax
  /-- The cursor stays inside the stream or at its end (10_state.md R36). -/
  work_cursor : s.work.q ≤ s.work.src.length
  /-- The scan's output fits (42_rc.md R190, R191). -/
  work_out : s.work.out.length ≤ s.cfg.nmax

/-! ### What a command leaves behind -/

/-- `X` is the input stream `IBUF[0..ILEN)`, as far as its bytes are specified; an unspecified byte may be any value
(70_reset_and_hazards.md R304). -/
def State.InputAgrees (s : State) (X : List Byte) : Prop :=
  X.length = s.ilen.toNat ∧ ∀ i b, i < X.length → Memory.read s.ibuf i = some b → X[i]? = some b

/-- The host has written the whole input stream, and it is `X` (70_reset_and_hazards.md R303). -/
def State.InputIs (s : State) (X : List Byte) : Prop :=
  s.ilen.toNat = X.length ∧ ∀ i, i < X.length → Memory.read s.ibuf i = X[i]?

/-- `Y` is the output stream `OBUF[0..OLEN)`, as far as its bytes are specified. -/
def State.OutputAgrees (s : State) (Y : List Byte) : Prop :=
  Y.length = s.olen.toNat ∧ ∀ i b, i < Y.length → Memory.read s.obuf i = some b → Y[i]? = some b

/-- What no command but `MOV` writes (20_memory.md R71), and what no command writes at all. -/
structure CommandFrame (s t : State) : Prop where
  cfg : t.cfg = s.cfg
  ilen : t.ilen = s.ilen
  ibuf : t.ibuf = s.ibuf
  script : t.script = s.script
  reply : t.reply = s.reply

/-- A command ended in `DONE` with the output stream `Y` (10_state.md R32, R37, R47): bytes of `OBUF` at or above
`OLEN` have no specified value. -/
structure Delivered (s t : State) (Y : List Byte) : Prop where
  frame : CommandFrame s t
  fits : Y.length ≤ s.cfg.nmax
  olen : t.olen.toNat = Y.length
  obuf : ∀ i, Memory.read t.obuf i = Y[i]?
  st : t.st = .done
  err : t.err = .none

/-- A command ended in the error `e` (60_exceptions.md R266). -/
structure ErrorEntered (s t : State) (e : ErrCode) : Prop where
  frame : CommandFrame s t
  idx : t.idx = s.idx
  st : t.st = .error
  err : t.err = e
  olen : t.olen = 0
  obuf : ∀ i, Memory.read t.obuf i = none

/-- A command that leaves `IDX` alone ended as its stage function says (00_scope.md R19). -/
def Concludes (s t : State) : Except ErrCode (List Byte) → Prop
  | .ok Y => Delivered s t Y ∧ t.idx = s.idx
  | .error e => ErrorEntered s t e

/-! ### Orders and streams -/

/-- `X[k mod n]` (20_memory.md R86). -/
def cyc (X : List Byte) (k : Nat) : Byte := X.getD (k % X.length) 0

/-- 40_bst.md R132 (1): at the least position where they differ, rotation `a` has the smaller byte. -/
def RotationLess (X : List Byte) (a b : Nat) : Prop :=
  ∃ i < X.length, (cyc X (a + i)).toNat < (cyc X (b + i)).toNat ∧ ∀ j < i, cyc X (a + j) = cyc X (b + j)

/-- The two rotations are equal as sequences (40_bst.md R132 (2)). -/
def RotationEq (X : List Byte) (a b : Nat) : Prop := ∀ i < X.length, cyc X (a + i) = cyc X (b + i)

/-- `a` sorts before `b` (40_bst.md R132). -/
def SortsBefore (X : List Byte) (a b : Nat) : Prop := RotationLess X a b ∨ (RotationEq X a b ∧ a < b)

/-- A sequence of records (30_encoding.md R105). -/
def AreRecords (recs : List Instr) : Prop := ∀ i ∈ recs, i.space = .record ∧ i.wf true = true

/-- The bytes `h :: tail` begin a record and end inside it (42_rc.md R194): a repeat header with nothing after it, or a
raw header followed by fewer bytes than it announces. -/
def EndsMidRecord (h : Byte) (tail : List Byte) : Prop :=
  (128 ≤ h.toNat ∧ tail = []) ∨ (h.toNat < 128 ∧ tail.length < h.toNat)

end Sys2Proof.Machine
end

