-- ==== Sys2Proof/Certificates/Slice0/Obligations.lean ====
section
/-! DEFINITION. The statements for the provers. Each docstring names the rules of spec/ it formalises. `decodeCommand`,
`exec`, `hostAct` and `step` are the machine; `Delivered`, `ErrorEntered`, `CommandFrame` and the other predicates are in
Sys2Proof/Safety.lean. -/

open Sys2Proof Sys2Proof.Machine

/-! ### Encoding -/

/-- Words written out from 30_encoding.md R100, R108, R109, R113 decode to what they stand for. -/
def Obligations.WrittenOutWordsDecode : Prop :=
  decode true .command [0b00000110#8] = .ok (.rcDec, []) ∧
  decode true .command [0b00001111#8, 0x55#8] = .ok (.clr, [0x55#8]) ∧
  decode false .command [0b00000111#8] = .ok (.reservedCmd 0x07#8, []) ∧
  decode true .record [0b11111111#8, 0b00000000#8] = .ok (.rep 127#7 0x00#8, []) ∧
  decode true .record [0b10000011#8, 0b01100011#8, 0b00000001#8] = .ok (.rep 3#7 0x63#8, [0x01#8]) ∧
  decode true .record [0b00000010#8, 0b10000011#8, 0b10000100#8, 0b10000011#8] =
    .ok (.raw [0x83#8, 0x84#8], [0x83#8]) ∧
  decode true .record [0b00000000#8] = .ok (.raw [], []) ∧
  decode true .record [0b10000000#8] = .error .missingValueByte ∧
  decode true .header [0#8, 0#8, 0#8, 0b00000100#8, 0x06#8] = .ok (.hdrComp 4#32, [0x06#8]) ∧
  decode true .header [0b00000001#8, 0#8, 0#8, 0#8] = .ok (.hdrComp 0x01000000#32, []) ∧
  decode true .header [0#8, 0#8, 0#8, 0#8, 0x01#8] = .ok (.hdrStore, [0x01#8])

/-- Every well-formed instruction, with every operand at every value its encoding admits, decodes from its encoding,
whatever bytes follow (30_encoding.md R100, R108 to R110, R113, R114). -/
def Obligations.DecodeOfEncodeIsTheInstruction : Prop :=
  ∀ (hasFramer : Bool) (i : Instr) (rest : List Byte), i.wf hasFramer = true →
    decode hasFramer i.space (encode i ++ rest) = .ok (i, rest)

/-- Conversely, what decodes is a well-formed instruction of that place, and its encoding is the bytes it was read
from: no two byte sequences are read as one instruction. -/
def Obligations.EncodeOfDecodeIsTheBytes : Prop :=
  ∀ (hasFramer : Bool) (sp : Space) (bytes rest : List Byte) (i : Instr),
    decode hasFramer sp bytes = .ok (i, rest) →
      i.wf hasFramer = true ∧ i.space = sp ∧ encode i ++ rest = bytes

/-- 30_encoding.md R101, 60_exceptions.md R264: which words are reserved, and that a reserved word issued in `IDLE` or
`DONE` ends with `IllegalCommand`. -/
def Obligations.ReservedWordsRaiseIllegalCommand : Prop :=
  ∀ (s : State) (c : Byte),
    ((16 ≤ c.toNat ∨ (10 ≤ c.toNat ∧ c.toNat ≤ 14) ∨
        (s.cfg.hasFramer = false ∧ (c.toNat = 7 ∨ c.toNat = 8))) ↔
      decodeCommand s.cfg.hasFramer c = .reservedCmd c) ∧
    (decodeCommand s.cfg.hasFramer c = .reservedCmd c → s.Accepting →
      ∃ t, hostAct (.command c) s = .next t ∧ exec (.reservedCmd c) s = .next t ∧
        ErrorEntered s t .illegalCommand ∧ t.err.code = 4)

/-! ### Steps -/

/-- A step is the host's next action (20_memory.md R72, R80), which is then used up; a command word is decoded and
executed; with no action to come and no command running "the block just stays as it is" (70_reset_and_hazards.md R313).
That the actions to come stand in the field `script` is the model's choice (log 2). -/
def Obligations.StepRunsTheHostsAction : Prop :=
  ∀ (s : State) (a : HostAction) (rest : List HostAction) (c : Byte) (i : Instr), s.st ≠ .busy →
    (s.script = a :: rest → step s = hostAct a { s with script := rest }) ∧
    (s.script = .command c :: rest → decode s.cfg.hasFramer .command [c] = .ok (i, []) →
      step s = exec i { s with script := rest }) ∧
    (s.script = [] → step s = .next s)

/-- A step runs the record at the cursor, and the header at the front of a container (10_state.md R36; 42_rc.md R192;
43_container.md R219): while a command's inside is shown, which is the model's choice (log 7), and no host action may come first, the
step is `exec` of the instruction the bytes decode to. -/
def Obligations.StepRunsTheStreamsInstruction : Prop :=
  ∀ (s : State) (i : Instr) (rest : List Byte), s.st = .busy → s.hostTurn = false →
    (s.work.kind ≠ .header → decode s.cfg.hasFramer .record (s.work.src.drop s.work.q) = .ok (i, rest) →
      step s = exec i s) ∧
    (s.work.kind = .header → decode s.cfg.hasFramer .header s.work.src = .ok (i, rest) → step s = exec i s)

/-- 10_state.md R49, 70_reset_and_hazards.md R300: what reset leaves, from any state and in `State.reset`, and that
nothing starts running. -/
def Obligations.ResetLeavesTheResetValues : Prop :=
  (∀ s : State, ∃ t, hostAct .reset s = .next t ∧ t.ilen = 0 ∧ t.olen = 0 ∧ t.idx = 0 ∧ t.st = .idle ∧
    t.err = .none ∧ t.cfg = s.cfg ∧ ∀ i, Memory.read t.ibuf i = none ∧ Memory.read t.obuf i = none) ∧
  State.reset.ilen = 0 ∧ State.reset.olen = 0 ∧ State.reset.idx = 0 ∧ State.reset.st = .idle ∧
  State.reset.err = .none ∧
  (∀ i, Memory.read State.reset.ibuf i = none ∧ Memory.read State.reset.obuf i = none) ∧
  step State.reset = .next State.reset

/-- 20_memory.md R72, the buffers: a write changes the addressed byte of `IBUF` and nothing else; a read returns the
byte, any value where it is unspecified, and changes nothing of the block; an index at or above `NMAX` is refused. -/
def Obligations.HostBufferAccesses : Prop :=
  ∀ (s : State) (i : Nat) (b : Byte), s.st ≠ .busy →
    (i < s.cfg.nmax →
      (∃ t, hostAct (.writeIBuf i b) s = .next t ∧ Memory.read t.ibuf i = some b ∧
        (∀ j, j ≠ i → Memory.read t.ibuf j = Memory.read s.ibuf j) ∧
        t = { s with ibuf := t.ibuf }) ∧
      (∃ v t, hostAct (.readIBuf i) s = .next t ∧ t = { s with reply := some (.byte v), draws := t.draws } ∧
        ∀ w, Memory.read s.ibuf i = some w → v = w) ∧
      (∃ v t, hostAct (.readOBuf i) s = .next t ∧ t = { s with reply := some (.byte v), draws := t.draws } ∧
        ∀ w, Memory.read s.obuf i = some w → v = w)) ∧
    (s.cfg.nmax ≤ i →
      hostAct (.writeIBuf i b) s = .refused .bufferIndexOutOfRange ∧
      hostAct (.readIBuf i) s = .refused .bufferIndexOutOfRange ∧
      hostAct (.readOBuf i) s = .refused .bufferIndexOutOfRange)

/-- 20_memory.md R72, the registers: `ILEN` and `IDX` take any value, `ILEN`, `OLEN`, `IDX`, `ST` and `ERR` are read
with the codes of 10_state.md R37, R38, and nothing else changes. -/
def Obligations.HostRegisterAccesses : Prop :=
  ∀ (s : State) (v : Word32), s.st ≠ .busy →
    hostAct (.writeReg .ilen v) s = .next { s with ilen := v } ∧
    hostAct (.writeReg .idx v) s = .next { s with idx := v } ∧
    hostAct (.readReg .ilen) s = .next { s with reply := some (.word s.ilen) } ∧
    hostAct (.readReg .olen) s = .next { s with reply := some (.word s.olen) } ∧
    hostAct (.readReg .idx) s = .next { s with reply := some (.word s.idx) } ∧
    (∃ k, hostAct (.readReg .st) s = .next { s with reply := some (.status k) } ∧
      (s.st = .idle → k = 0) ∧ (s.st = .done → k = 2) ∧ (s.st = .error → k = 3)) ∧
    (∃ k, hostAct (.readReg .err) s = .next { s with reply := some (.error k) } ∧
      (s.err = .none → k = 0) ∧ (s.err = .invalidIndex → k = 1) ∧ (s.err = .truncatedData → k = 2) ∧
      (s.err = .capacity → k = 3) ∧ (s.err = .illegalCommand → k = 4))

/-- 20_memory.md R87 as 93_implementation_defined.md U3 reads it: while `ST = BUSY` every host action but a read of `ST`
and a reset is refused, every command with it. -/
def Obligations.AccessWhileBusyIsRefused : Prop :=
  ∀ s : State, s.st = .busy →
    (∀ a : HostAction, a ≠ .readReg .st → a ≠ .reset → hostAct a s = .refused .accessWhileBusy) ∧
    (∀ i : Instr, i.space = .command → exec i s = .refused .accessWhileBusy) ∧
    hostAct (.readReg .st) s = .next { s with reply := some (.status 1) }

/-! ### The status machine -/

/-- 60_exceptions.md R270's table, row by row. -/
def Obligations.StatusMachineTable : Prop :=
  ∀ (s : State) (i : Instr), i.space = .command →
    (s.st = .error → i ≠ .nop → i ≠ .clr → exec i s = .next s) ∧
    (s.st ≠ .busy → i = .nop → exec i s = .next s) ∧
    (s.st ≠ .busy → i = .clr → ∃ t, exec i s = .next t ∧ t.st = .idle) ∧
    (s.Accepting → i = .mov → ∃ t, exec i s = .next t ∧ t.st = .done) ∧
    (s.Accepting → isTransform i = true → ∃ t, exec i s = .next t ∧ (t.st = .done ∨ t.st = .error)) ∧
    (∀ c, s.Accepting → i = .reservedCmd c →
      ∃ t, exec i s = .next t ∧ t.st = .error ∧ t.err = .illegalCommand) ∧
    (s.st = .busy → exec i s = .refused .accessWhileBusy)

/-- 60_exceptions.md R271: a step from `ERROR` leaves the latched error in place, but for `CLR`, which restores nothing,
and reset. -/
def Obligations.OnlyClearAndResetLeaveError : Prop :=
  ∀ s t : State, s.st = .error → step s = .next t →
    (t.st = .error ∧ t.err = s.err) ∨
    (t.st = .idle ∧ t.err = .none ∧
      ∃ rest, s.script = .reset :: rest ∨
        ∃ c, s.script = .command c :: rest ∧ decodeCommand s.cfg.hasFramer c = .clr ∧
          t = { s with script := rest, st := t.st, err := t.err })

/-- 60_exceptions.md R266: whichever command ends in `ERROR`, the state is the one error entry describes. -/
def Obligations.EveryErrorEntersTheSameWay : Prop :=
  ∀ (i : Instr) (s t : State), i.space = .command → s.Accepting → exec i s = .next t → t.st = .error →
    ErrorEntered s t t.err ∧ t.err ≠ .none

/-- 20_memory.md R71 with 10_state.md R33, R46: no command but `MOV` writes `IBUF` or `ILEN`, and none but `BST.FWD`
writes `IDX`. -/
def Obligations.OnlyMovWritesTheInput : Prop :=
  ∀ (i : Instr) (s t : State), i.space = .command → exec i s = .next t →
    (i ≠ .mov → CommandFrame s t) ∧ (i ≠ .bstFwd → t.idx = s.idx)

/-- 10_state.md R37 "At the transaction level `BUSY` is never observed": a step from a state that is not `BUSY` ends in
one that is not. -/
def Obligations.BusyIsNeverObserved : Prop :=
  ∀ s t : State, s.st ≠ .busy → step s = .next t → t.st ≠ .busy

/-- 10_state.md R48: the result of a transform command is a function of `IBUF[0..ILEN)`, `ILEN`, the parameters and, for
`BST.INV`, `IDX`: nothing else of the state bears on it. -/
def Obligations.ResultDependsOnTheInputAlone : Prop :=
  ∀ (i : Instr) (s₁ s₂ : State) (X : List Byte), isTransform i = true → s₁.Accepting → s₂.Accepting →
    s₁.cfg = s₂.cfg → s₁.InputIs X → s₂.InputIs X → (i = .bstInv → s₁.idx = s₂.idx) →
      ∃ t₁ t₂, exec i s₁ = .next t₁ ∧ exec i s₂ = .next t₂ ∧ t₁.st = t₂.st ∧ t₁.err = t₂.err ∧
        t₁.olen = t₂.olen ∧ t₁.obuf = t₂.obuf ∧ (i = .bstFwd → t₁.st = .done → t₁.idx = t₂.idx)

/-! ### The invariant -/

/-- Every step keeps the invariant: canonical buffers inside `NMAX`, `OLEN <= NMAX` (10_state.md R32), `OBUF` specified
exactly below `OLEN` (R47), `ERR != 0` exactly when `ST = ERROR` (R38), the cursor inside the stream (R36). -/
def Obligations.StepKeepsTheInvariant : Prop :=
  ∀ s t : State, s.Inv → step s = .next t → t.Inv

/-- The invariant holds after reset, for every instance. -/
def Obligations.ResetMeetsTheInvariant : Prop :=
  State.reset.Inv ∧ ∀ cfg : Config, (State.resetOf cfg).Inv

/-! ### Control commands -/

/-- 44_control.md R241: `NOP`, `0x00`, does nothing, also in `ERROR`. -/
def Obligations.NopChangesNothing : Prop :=
  ∀ s : State, s.st ≠ .busy → decodeCommand s.cfg.hasFramer 0x00#8 = .nop ∧ exec .nop s = .next s

/-- 44_control.md R242: `CLR`, `0x0F`, writes `ST` and `ERR` and nothing else, in `IDLE`, `DONE` and `ERROR`; in `ERROR` no
other command changes anything. -/
def Obligations.ClrClearsStatusAndErrorOnly : Prop :=
  ∀ s : State, s.st ≠ .busy → decodeCommand s.cfg.hasFramer 0x0F#8 = .clr ∧
    (∃ t, exec .clr s = .next t ∧ t.st = .idle ∧ t.err = .none ∧ t = { s with st := t.st, err := t.err }) ∧
    (s.st = .error → ∀ i : Instr, i.space = .command → i ≠ .clr → exec i s = .next s)

/-- 44_control.md R244: `MOV`, `0x09`, copies the output stream to `IBUF` and `OLEN` to `ILEN`; bytes of `IBUF` at or
above `OLEN`, `OBUF`, `OLEN`, `IDX` and the working state (R245) stay; in `ERROR` it is ignored. Of the model's own fields
only the draw counter moves (log 4), of which nothing is said. -/
def Obligations.MovCopiesOutputToInput : Prop :=
  ∀ s : State, decodeCommand s.cfg.hasFramer 0x09#8 = .mov ∧
    (s.st = .error → exec .mov s = .next s) ∧
    (s.Accepting → ∃ (Y : List Byte) (t : State), s.OutputAgrees Y ∧ exec .mov s = .next t ∧
      (∀ i, i < s.olen.toNat → Memory.read t.ibuf i = Y[i]?) ∧
      (∀ i, s.olen.toNat ≤ i → Memory.read t.ibuf i = Memory.read s.ibuf i) ∧
      t.ilen = s.olen ∧ t.st = .done ∧ t.err = .none ∧ t.obuf = s.obuf ∧ t.olen = s.olen ∧ t.idx = s.idx ∧
      t.work = s.work ∧ t.cfg = s.cfg ∧ t.script = s.script ∧ t.reply = s.reply)

/-! ### Transform commands -/

/-- 40_bst.md R136: `BST.FWD`. -/
def Obligations.BstFwdCommand : Prop :=
  ∀ s : State, s.Accepting → decodeCommand s.cfg.hasFramer 0x01#8 = .bstFwd ∧
    (s.cfg.nmax < s.ilen.toNat → ∃ t, exec .bstFwd s = .next t ∧ ErrorEntered s t .capacity) ∧
    (s.ilen.toNat ≤ s.cfg.nmax → ∃ (X : List Byte) (t : State), s.InputAgrees X ∧ exec .bstFwd s = .next t ∧
      Delivered s t (bstFwd X).1 ∧ t.olen = s.ilen ∧ t.idx.toNat = (bstFwd X).2)

/-- 40_bst.md R142: `BST.INV`. -/
def Obligations.BstInvCommand : Prop :=
  ∀ s : State, s.Accepting → decodeCommand s.cfg.hasFramer 0x02#8 = .bstInv ∧
    (s.cfg.nmax < s.ilen.toNat → ∃ t, exec .bstInv s = .next t ∧ ErrorEntered s t .capacity) ∧
    (s.ilen.toNat ≤ s.cfg.nmax →
      (s.ilen.toNat = 0 ∧ s.idx.toNat ≠ 0) ∨ (s.ilen.toNat ≠ 0 ∧ s.ilen.toNat ≤ s.idx.toNat) →
        ∃ t, exec .bstInv s = .next t ∧ ErrorEntered s t .invalidIndex) ∧
    (s.ilen.toNat ≤ s.cfg.nmax →
      (s.ilen.toNat = 0 ∧ s.idx.toNat = 0) ∨ s.idx.toNat < s.ilen.toNat →
        ∃ (T Y : List Byte) (t : State), s.InputAgrees T ∧ bstInv T s.idx.toNat = .ok Y ∧
          exec .bstInv s = .next t ∧ Delivered s t Y ∧ t.olen = s.ilen ∧ t.idx = s.idx)

/-- 41_rrt.md R163: `RRT.FWD`. -/
def Obligations.RrtFwdCommand : Prop :=
  ∀ s : State, s.Accepting → decodeCommand s.cfg.hasFramer 0x03#8 = .rrtFwd ∧
    (s.cfg.nmax < s.ilen.toNat → ∃ t, exec .rrtFwd s = .next t ∧ ErrorEntered s t .capacity) ∧
    (s.ilen.toNat ≤ s.cfg.nmax → ∃ (X : List Byte) (t : State), s.InputAgrees X ∧ exec .rrtFwd s = .next t ∧
      Delivered s t (rrtFwd X) ∧ t.olen = s.ilen ∧ t.idx = s.idx)

/-- 41_rrt.md R166, R167: `RRT.INV` fails on capacity only. -/
def Obligations.RrtInvCommand : Prop :=
  ∀ s : State, s.Accepting → decodeCommand s.cfg.hasFramer 0x04#8 = .rrtInv ∧
    (s.cfg.nmax < s.ilen.toNat → ∃ t, exec .rrtInv s = .next t ∧ ErrorEntered s t .capacity) ∧
    (s.ilen.toNat ≤ s.cfg.nmax → ∃ (R Y : List Byte) (t : State), s.InputAgrees R ∧
      rrtInvBytes R = .ok Y ∧ exec .rrtInv s = .next t ∧ Delivered s t Y ∧ t.olen = s.ilen ∧ t.idx = s.idx)

/-- 42_rc.md R184: `RC.ENC`; the output may be too long only near full buffers. -/
def Obligations.RcEncCommand : Prop :=
  ∀ s : State, s.Accepting → decodeCommand s.cfg.hasFramer 0x05#8 = .rcEnc ∧
    (s.cfg.nmax < s.ilen.toNat → ∃ t, exec .rcEnc s = .next t ∧ ErrorEntered s t .capacity) ∧
    (s.ilen.toNat ≤ s.cfg.nmax → ∃ (S : List Byte) (t : State), s.InputAgrees S ∧ exec .rcEnc s = .next t ∧
      ((rcEnc S).length ≤ s.cfg.nmax → Delivered s t (rcEnc S) ∧ t.idx = s.idx) ∧
      (s.cfg.nmax < (rcEnc S).length →
        ErrorEntered s t .capacity ∧ s.cfg.nmax < s.ilen.toNat + s.cfg.nmax / 127 + 1))

/-- 42_rc.md R193: `RC.DEC`. -/
def Obligations.RcDecCommand : Prop :=
  ∀ s : State, s.Accepting → decodeCommand s.cfg.hasFramer 0x06#8 = .rcDec ∧
    (s.cfg.nmax < s.ilen.toNat → ∃ t, exec .rcDec s = .next t ∧ ErrorEntered s t .capacity) ∧
    (s.ilen.toNat ≤ s.cfg.nmax → ∃ (B : List Byte) (t : State), s.InputAgrees B ∧ exec .rcDec s = .next t ∧
      Concludes s t (rcDecScan s.cfg.nmax B)) ∧
    (∀ B Y : List Byte, s.InputIs B → B.length ≤ s.cfg.nmax → rcDecScan s.cfg.nmax B = .ok Y →
      ∃ t, exec .rcDec s = .next t ∧ Delivered s t Y ∧ t.idx = s.idx)

/-- 43_container.md R214: `CT.ENC`, where the framer exists; a container that is too long is a store-mode one. Without
the framer its code is reserved (00_scope.md R12). -/
def Obligations.CtEncCommand : Prop :=
  ∀ s : State, s.Accepting →
    (s.cfg.hasFramer = false → decodeCommand s.cfg.hasFramer 0x07#8 = .reservedCmd 0x07#8 ∧
      ∃ t, hostAct (.command 0x07#8) s = .next t ∧ ErrorEntered s t .illegalCommand) ∧
    (s.cfg.hasFramer = true → decodeCommand s.cfg.hasFramer 0x07#8 = .ctEnc ∧
      (s.cfg.nmax < s.ilen.toNat → ∃ t, exec .ctEnc s = .next t ∧ ErrorEntered s t .capacity) ∧
      (s.ilen.toNat ≤ s.cfg.nmax → ∃ (X : List Byte) (t : State), s.InputAgrees X ∧ exec .ctEnc s = .next t ∧
        ((ctEnc s.cfg.hdrBias.val X).length ≤ s.cfg.nmax →
          Delivered s t (ctEnc s.cfg.hdrBias.val X) ∧ t.idx = s.idx) ∧
        (s.cfg.nmax < (ctEnc s.cfg.hdrBias.val X).length →
          ErrorEntered s t .capacity ∧ ctEnc s.cfg.hdrBias.val X = [0#8, 0#8, 0#8, 0#8] ++ X ∧
          s.cfg.nmax < s.ilen.toNat + 4)))

/-- 43_container.md R222: `CT.DEC`, where the framer exists. -/
def Obligations.CtDecCommand : Prop :=
  ∀ s : State, s.Accepting →
    (s.cfg.hasFramer = false → decodeCommand s.cfg.hasFramer 0x08#8 = .reservedCmd 0x08#8 ∧
      ∃ t, hostAct (.command 0x08#8) s = .next t ∧ ErrorEntered s t .illegalCommand) ∧
    (s.cfg.hasFramer = true → decodeCommand s.cfg.hasFramer 0x08#8 = .ctDec ∧
      (s.cfg.nmax < s.ilen.toNat → ∃ t, exec .ctDec s = .next t ∧ ErrorEntered s t .capacity) ∧
      (s.ilen.toNat ≤ s.cfg.nmax → ∃ (C : List Byte) (t : State), s.InputAgrees C ∧ exec .ctDec s = .next t ∧
        Concludes s t (ctDec s.cfg.nmax s.cfg.hdrBias.val C)) ∧
      (∀ C X : List Byte, s.InputIs C → C.length ≤ s.cfg.nmax → ctDec s.cfg.nmax s.cfg.hdrBias.val C = .ok X →
        ∃ t, exec .ctDec s = .next t ∧ Delivered s t X ∧ t.idx = s.idx))

/-! ### Records and headers -/

/-- 42_rc.md R190 on the bytes of the stream: the record at `q` whose header has bit 7 set. That a step shows one record
is the model's choice (log 7). -/
def Obligations.RepeatRecordAtTheCursor : Prop :=
  ∀ (s : State) (h : Byte), s.st = .busy → s.work.kind ≠ .header → s.hostTurn = false →
    s.work.src[s.work.q]? = some h → h.getLsbD 7 = true →
      (s.work.src.length ≤ s.work.q + 1 → ∃ t, step s = .next t ∧ ErrorEntered s t .truncatedData) ∧
      (∀ val, s.work.src[s.work.q + 1]? = some val →
        (s.cfg.nmax < s.work.out.length + (h &&& 0x7F#8).toNat →
          ∃ t, step s = .next t ∧ ErrorEntered s t .capacity) ∧
        (s.work.out.length + (h &&& 0x7F#8).toNat ≤ s.cfg.nmax →
          ∃ t, step s = .next t ∧ t.work.out = s.work.out ++ List.replicate (h &&& 0x7F#8).toNat val ∧
            t.work.q = s.work.q + 2 ∧
            t = { s with work := { s.work with out := t.work.out, q := t.work.q } }))

/-- 42_rc.md R191 on the bytes of the stream: the record at `q` whose header has bit 7 clear. That a step shows one record
is the model's choice (log 7). -/
def Obligations.RawRecordAtTheCursor : Prop :=
  ∀ (s : State) (h : Byte), s.st = .busy → s.work.kind ≠ .header → s.hostTurn = false →
    s.work.src[s.work.q]? = some h → h.getLsbD 7 = false →
      (s.work.src.length < s.work.q + 1 + h.toNat → ∃ t, step s = .next t ∧ ErrorEntered s t .truncatedData) ∧
      (s.work.q + 1 + h.toNat ≤ s.work.src.length →
        (s.cfg.nmax < s.work.out.length + h.toNat → ∃ t, step s = .next t ∧ ErrorEntered s t .capacity) ∧
        (s.work.out.length + h.toNat ≤ s.cfg.nmax →
          ∃ t, step s = .next t ∧
            t.work.out = s.work.out ++ (s.work.src.drop (s.work.q + 1)).take h.toNat ∧
            t.work.q = s.work.q + 1 + h.toNat ∧
            t = { s with work := { s.work with out := t.work.out, q := t.work.q } }))

/-- The records as instructions: each completes with its output appended and the cursor past its bytes, whenever the
output fits, and changes nothing else (42_rc.md R190, R191, 30_encoding.md R107). -/
def Obligations.RecordsAppendTheirOutput : Prop :=
  ∀ (s : State) (i : Instr), i.space = .record → s.work.out.length + (recordOutput i).length ≤ s.cfg.nmax →
    ∃ t, exec i s = .next t ∧ t.work.out = s.work.out ++ recordOutput i ∧
      t.work.q = s.work.q + (encode i).length ∧
      t = { s with work := { s.work with out := t.work.out, q := t.work.q } }

/-- `HDR.STORE` as an instruction (43_container.md R219): the bytes after the header are the output. -/
def Obligations.StoreHeaderDeliversThePayload : Prop :=
  ∀ (s : State) (payload : List Byte), s.work.src = [0#8, 0#8, 0#8, 0#8] ++ payload →
    payload.length ≤ s.cfg.nmax → ∃ t, exec .hdrStore s = .next t ∧ Delivered s t payload ∧ t.idx = s.idx

/-- `HDR.COMP` as an instruction (43_container.md R219, 30_encoding.md R114): the index is the header less `HDR_BIAS`,
and the scan of the payload starts with no output; nothing the host can see changes. -/
def Obligations.CompressedHeaderStartsThePayloadScan : Prop :=
  ∀ (s : State) (h : Word32) (payload : List Byte), h ≠ 0 → s.work.src = be32 h ++ payload →
    ∃ t, exec (.hdrComp h) s = .next t ∧ t.work.idxw.toNat + s.cfg.hdrBias.val = h.toNat ∧
      t.work.kind = .container ∧ t.work.src = payload ∧ t.work.q = 0 ∧ t.work.out = [] ∧
      t = { s with work := t.work }

/-- `RC.DEC` in one step is its records, one step each (20_memory.md R76, 42_rc.md R192), and it ends after at most
`ILEN + 1` of them (70_reset_and_hazards.md R311). The view of one record a step is the model's choice (log 7). -/
def Obligations.RcDecIsItsRecordsOneByOne : Prop :=
  ∀ s : State, s.Accepting → s.ilen.toNat ≤ s.cfg.nmax → s.HostWaits →
    ∃ (k : Nat) (t : State), k ≤ s.ilen.toNat + 1 ∧
      Host.Core.run Sys2Proof.core k s.beginRcDec = .next t ∧ exec .rcDec s = .next t

/-- `CT.DEC` in one step is its header and then its records, one step each (43_container.md R219). The view of one record
a step is the model's choice (log 7). -/
def Obligations.CtDecIsItsHeaderAndRecords : Prop :=
  ∀ s : State, s.Accepting → s.cfg.hasFramer = true → s.ilen.toNat ≤ s.cfg.nmax → s.HostWaits →
    ∃ (k : Nat) (t : State), k ≤ s.ilen.toNat + 1 ∧
      Host.Core.run Sys2Proof.core k s.beginCtDec = .next t ∧ exec .ctDec s = .next t

/-! ### Block-Sort Transform -/

/-- 40_bst.md R132 to R135: `ROT` is the one arrangement of the offsets that is sorted by rotation and then by offset;
the output is the byte before each rotation; the primary index is the sorted position of offset 0. -/
def Obligations.BstForwardSortsRotations : Prop :=
  ∀ X : List Byte,
    (rot X).Perm (List.range X.length) ∧ (rot X).Pairwise (SortsBefore X) ∧
    (∀ l : List Nat, l.Perm (List.range X.length) → l.Pairwise (SortsBefore X) → l = rot X) ∧
    (bstFwd X).1 = (rot X).map (fun r => cyc X (r + X.length - 1)) ∧
    (X ≠ [] → (rot X)[(bstFwd X).2]? = some 0) ∧
    bstFwd [] = ([], 0)

/-- 40_bst.md R137 (a) to (f). -/
def Obligations.BstForwardConsequences : Prop :=
  ∀ X : List Byte,
    (bstFwd X).1.length = X.length ∧ (bstFwd X).1.Perm X ∧
    (X ≠ [] → (bstFwd X).2 < X.length) ∧
    (∀ l : List Nat, l.Perm (List.range X.length) → l.Pairwise (fun a b => ¬ RotationLess X b a) →
      l.map (fun r => cyc X (r + X.length - 1)) = (bstFwd X).1) ∧
    (∀ p r, (rot X)[p]? = some r → RotationEq X r 0 → (bstFwd X).2 ≤ p) ∧
    (∀ b, bstFwd [b] = ([b], 0)) ∧
    (∀ b n, rot (List.replicate n b) = List.range n ∧ bstFwd (List.replicate n b) = (List.replicate n b, 0))

/-- 40_bst.md R139, R146: `InvalidIndex` exactly where the index is out of range (for the empty input: not 0); else
exactly `n` bytes, whatever `T` holds. -/
def Obligations.BstInverseChecksTheIndexOnly : Prop :=
  ∀ (T : List Byte) (idx0 : Nat),
    ((T = [] ∧ idx0 ≠ 0) ∨ (T ≠ [] ∧ T.length ≤ idx0) → bstInv T idx0 = .error .invalidIndex) ∧
    ((T = [] ∧ idx0 = 0) ∨ idx0 < T.length → ∃ Y, bstInv T idx0 = .ok Y ∧ Y.length = T.length)

/-- 40_bst.md R140, R141: `START[v]` counts the smaller bytes, and `MAP[j]` the smaller bytes and the equal ones before
position `j`. -/
def Obligations.LfMapCountsSmallerAndEarlier : Prop :=
  ∀ T : List Byte,
    (∀ v, startOf T v = T.countP (fun b => decide (b.toNat < v)) ∧ cnt T v = T.countP (fun b => decide (b.toNat = v)) ∧
      startOf T v + cnt T v ≤ T.length) ∧
    startOf T 0 = 0 ∧ (lfMap T).length = T.length ∧
    ∀ j b, T[j]? = some b →
      (lfMap T)[j]? =
        some (T.countP (fun c => decide (c.toNat < b.toNat)) + (T.take j).countP (fun c => decide (c = b)))

/-- 40_bst.md R144: `MAP` is a permutation of `[0, n)`, so the walk stays inside. -/
def Obligations.LfMapIsAPermutation : Prop :=
  ∀ T : List Byte, (lfMap T).Perm (List.range T.length)

/-- 40_bst.md R145: the round trip, as functions and as the commands `BST.FWD; MOV; BST.INV`. -/
def Obligations.BstRoundTrip : Prop :=
  (∀ X : List Byte, bstInv (bstFwd X).1 (bstFwd X).2 = .ok X) ∧
  ∀ (s : State) (X : List Byte), s.Accepting → s.InputIs X → X.length ≤ s.cfg.nmax →
    ∃ t₁ t₂ t₃, exec .bstFwd s = .next t₁ ∧ exec .mov t₁ = .next t₂ ∧ exec .bstInv t₂ = .next t₃ ∧
      t₃.st = .done ∧ t₃.olen.toNat = X.length ∧ ∀ i, Memory.read t₃.obuf i = X[i]?

/-! ### Recency-Rank Transform -/

/-- 41_rrt.md R161, R162: `Mtf(k)` puts entry `k` first and moves those before it one place back; after any moves the
list holds each byte at exactly one position. -/
def Obligations.MoveToFrontRearranges : Prop :=
  (∀ (alpha : List Byte) (k : Nat) (b : Byte), alpha[k]? = some b →
    (moveToFront alpha k)[0]? = some b ∧
    (∀ p, 1 ≤ p → p ≤ k → (moveToFront alpha k)[p]? = alpha[p - 1]?) ∧
    (∀ p, k < p → (moveToFront alpha k)[p]? = alpha[p]?)) ∧
  (∀ p, p < 256 → initialAlpha[p]? = some (BitVec.ofNat 8 p)) ∧
  ∀ ks : List Nat, (∀ k ∈ ks, k < 256) →
    (ks.foldl moveToFront initialAlpha).length = 256 ∧
    ∀ b : Byte, ∃ k < 256, (ks.foldl moveToFront initialAlpha)[k]? = some b ∧
      rankOf (ks.foldl moveToFront initialAlpha) b = k ∧
      ∀ k', (ks.foldl moveToFront initialAlpha)[k']? = some b → k' = k

/-- 41_rrt.md R164: the closed form of a rank. -/
def Obligations.RankClosedForm : Prop :=
  ∀ (X : List Byte) (j : Nat) (b : Byte), X[j]? = some b →
    (∀ p, p < j → X[p]? = some b → (∀ q, p < q → q < j → X[q]? ≠ some b) →
      ∃ r, (rrtFwd X)[j]? = some r ∧ r.toNat = ((X.take j).drop (p + 1)).dedup.length) ∧
    (b ∉ X.take j →
      ∃ r, (rrtFwd X)[j]? = some r ∧
        r.toNat = b.toNat + ((X.take j).filter (fun c => decide (b.toNat < c.toNat))).dedup.length)

/-- 41_rrt.md R165, R166: over unbounded numbers `RrtInv` fails, with `InvalidIndex`, exactly where some number is above
255; on bytes it never fails. -/
def Obligations.RrtInverseChecksTheRange : Prop :=
  (∀ (R : List Nat) (e : ErrCode), rrtInv R = .error e ↔ (∃ k ∈ R, 255 < k) ∧ e = .invalidIndex) ∧
  ∀ R : List Byte, ∃ Y, rrtInvBytes R = .ok Y ∧ Y.length = R.length

/-- 41_rrt.md R168: both round trips. -/
def Obligations.RrtRoundTrips : Prop :=
  (∀ X : List Byte, rrtInvBytes (rrtFwd X) = .ok X) ∧
  ∀ R Y : List Byte, rrtInvBytes R = .ok Y → rrtFwd Y = R

/-! ### Run Codec -/

/-- 42_rc.md R181: the run is the longest, capped at 127. -/
def Obligations.RunIsTheLongestUpToTheCap : Prop :=
  ∀ (v : Byte) (S : List Byte),
    1 ≤ runLen (v :: S) ∧ runLen (v :: S) ≤ 127 ∧
    (∀ j, j < runLen (v :: S) → (v :: S)[j]? = some v) ∧
    (runLen (v :: S) < 127 → (v :: S)[runLen (v :: S)]? ≠ some v)

/-- 42_rc.md R182: the literal segment starts no run of three, and ends at the end of the input, at 127 values, or where
a run of three starts. -/
def Obligations.LiteralSegmentStopsWhereItMust : Prop :=
  ∀ S : List Byte, S ≠ [] → runLen S ≤ 2 →
    1 ≤ litLen S ∧ litLen S ≤ 127 ∧ litLen S ≤ S.length ∧
    (∀ j a, j < litLen S → ¬ (S[j]? = some a ∧ S[j + 1]? = some a ∧ S[j + 2]? = some a)) ∧
    (litLen S = S.length ∨ litLen S = 127 ∨
      ∃ a, S[litLen S]? = some a ∧ S[litLen S + 1]? = some a ∧ S[litLen S + 2]? = some a)

/-- 42_rc.md R187: what the encoder emits. -/
def Obligations.EncoderEmitsOnlyTheseRecords : Prop :=
  ∀ S : List Byte,
    rcEnc S = (rcRecords S).flatMap encode ∧ (rcRecords S).flatMap recordOutput = S ∧
    (∀ i ∈ rcRecords S, (∃ len val, i = .rep len val ∧ 3 ≤ len.toNat ∧ len.toNat ≤ 127) ∨
      ∃ lits, i = .raw lits ∧ 1 ≤ lits.length ∧ lits.length ≤ 127) ∧
    (∀ i ∈ rcRecords S, ∀ h, (encode i).head? = some h → h ∉ [0x00#8, 0x80#8, 0x81#8, 0x82#8]) ∧
    (∀ before lits next after, rcRecords S = before ++ .raw lits :: next :: after → lits.length < 127 →
      ∃ len val, next = .rep len val) ∧
    (∀ before l₁ l₂ val after, rcRecords S = before ++ .rep l₁ val :: .rep l₂ val :: after → l₁.toNat = 127)

/-- 42_rc.md R188: the size of the encoder's output. -/
def Obligations.EncoderOutputSize : Prop :=
  ∀ S : List Byte, (rcEnc S).length ≤ S.length + S.length / 127 + 1 ∧ ((rcEnc S).length = 0 ↔ S.length = 0)

/-- 30_encoding.md R105, R111, R112: the decoder succeeds on exactly the concatenations of records, whichever encoder
made them, and gives the concatenation of what the records stand for. -/
def Obligations.DecoderAcceptsExactlyRecordStreams : Prop :=
  ∀ B Y : List Byte, rcDec B = .ok Y ↔
    ∃ recs, AreRecords recs ∧ B = recs.flatMap encode ∧ Y = recs.flatMap recordOutput

/-- 42_rc.md R194: all the ways `TruncatedData` arises, and the only error of `RcDec`. -/
def Obligations.TruncatedDataExactlyMidRecord : Prop :=
  ∀ (B : List Byte) (e : ErrCode), rcDec B = .error e ↔
    e = .truncatedData ∧ ∃ recs h tail, AreRecords recs ∧ B = recs.flatMap encode ++ h :: tail ∧ EndsMidRecord h tail

/-- 42_rc.md R192, 60_exceptions.md R268: the first record that fails decides the error; within a record truncation
comes before capacity; a scan that never fails gives the unbounded decoder's result. -/
def Obligations.FirstFailingRecordDecides : Prop :=
  ∀ (nmax : Nat) (recs : List Instr), AreRecords recs →
    (nmax < (recs.flatMap recordOutput).length → ∀ B : List Byte,
      rcDecScan nmax (recs.flatMap encode ++ B) = .error .capacity) ∧
    ((recs.flatMap recordOutput).length ≤ nmax →
      rcDecScan nmax (recs.flatMap encode) = .ok (recs.flatMap recordOutput) ∧
      ∀ h tail, EndsMidRecord h tail →
        rcDecScan nmax (recs.flatMap encode ++ h :: tail) = .error .truncatedData)

/-- 42_rc.md R195: the round trip, as functions and as the commands `RC.ENC; MOV; RC.DEC` when the encoded stream
fits. -/
def Obligations.RcRoundTrip : Prop :=
  (∀ S : List Byte, rcDec (rcEnc S) = .ok S) ∧
  ∀ (s : State) (S : List Byte), s.Accepting → s.InputIs S → S.length ≤ s.cfg.nmax →
    (rcEnc S).length ≤ s.cfg.nmax →
      ∃ t₁ t₂ t₃, exec .rcEnc s = .next t₁ ∧ exec .mov t₁ = .next t₂ ∧ exec .rcDec t₂ = .next t₃ ∧
        t₃.st = .done ∧ t₃.olen.toNat = S.length ∧ ∀ i, Memory.read t₃.obuf i = S[i]?

/-- 42_rc.md R197: a stream of `m` bytes decodes to at most `127 * floor(m / 2)` bytes; repeat records of length 127
reach the bound, and with enough of them `RC.DEC` reaches `Capacity`. -/
def Obligations.DecoderOutputSize : Prop :=
  (∀ B Y : List Byte, rcDec B = .ok Y → Y.length ≤ 127 * (B.length / 2)) ∧
  ∀ (k : Nat) (v : Byte), rcDec ((List.replicate k [0xFF#8, v]).flatten) = .ok (List.replicate (127 * k) v) ∧
    ∀ nmax, nmax / 127 + 1 = k → rcDecScan nmax ((List.replicate k [0xFF#8, v]).flatten) = .error .capacity

/-! ### Container Framer -/

/-- 43_container.md R216: the size of a container. -/
def Obligations.ContainerSize : Prop :=
  ∀ (bias : Nat) (X : List Byte),
    (ctEnc bias X).length ≤ X.length + 4 ∧
    (ctEnc bias X = [0#8, 0#8, 0#8, 0#8] ++ X ∨
      (512 ≤ X.length ∧ (ctEnc bias X).length = (rcEnc (rrtFwd (bstFwd X).1)).length + 4 ∧
        (ctEnc bias X).length < X.length))

/-- 43_container.md R223: with `HDR_BIAS = 1` the round trip holds for every input the block can hold; with
`HDR_BIAS = 0` it fails for every input that compresses and has primary index 0 (30_encoding.md R115). -/
def Obligations.ContainerRoundTrip : Prop :=
  (∀ (nmax : Nat) (X : List Byte), X.length ≤ nmax → nmax < 2 ^ 32 → ctDec nmax 1 (ctEnc 1 X) = .ok X) ∧
  ∀ (nmax : Nat) (X : List Byte), 512 ≤ X.length →
    (rcEnc (rrtFwd (bstFwd X).1)).length + 4 < X.length → (bstFwd X).2 = 0 →
      ctDec nmax 0 (ctEnc 0 X) = .ok (rcEnc (rrtFwd (bstFwd X).1)) ∧ ctDec nmax 0 (ctEnc 0 X) ≠ .ok X

/-- 43_container.md R225: `CT.DEC` on a header of four zero bytes returns the rest of the input, `OLEN = ILEN - 4`; the
only error is `Capacity` on `ILEN > NMAX`. -/
def Obligations.StoreModeReturnsThePayload : Prop :=
  ∀ (s : State) (payload : List Byte), s.Accepting → s.cfg.hasFramer = true →
    s.InputIs ([0#8, 0#8, 0#8, 0#8] ++ payload) →
      (s.ilen.toNat ≤ s.cfg.nmax →
        ∃ t, exec .ctDec s = .next t ∧ Delivered s t payload ∧ t.olen.toNat = s.ilen.toNat - 4 ∧
          (∀ i, i < t.olen.toNat → Memory.read t.obuf i = Memory.read s.ibuf (i + 4)) ∧ t.idx = s.idx) ∧
      (s.cfg.nmax < s.ilen.toNat → ∃ t, exec .ctDec s = .next t ∧ ErrorEntered s t .capacity)

/-- 43_container.md R220, R221: fewer than four bytes are `TruncatedData`; in compressed mode an error of the RC step
hides a bad index, and `InvalidIndex` is reported exactly where the whole payload decoded and the index is not below
the decoded length. -/
def Obligations.ContainerErrorsInOrder : Prop :=
  ∀ (nmax bias : Nat),
    (∀ C : List Byte, C.length < 4 → ctDec nmax bias C = .error .truncatedData) ∧
    ∀ (h : Word32) (payload : List Byte), h ≠ 0 →
      (∀ e, rcDecScan nmax payload = .error e → ctDec nmax bias (be32 h ++ payload) = .error e) ∧
      (∀ R, rcDecScan nmax payload = .ok R →
        ((R = [] ∧ h.toNat - bias ≠ 0) ∨ (R ≠ [] ∧ R.length ≤ h.toNat - bias) →
          ctDec nmax bias (be32 h ++ payload) = .error .invalidIndex) ∧
        ((R = [] ∧ h.toNat - bias = 0) ∨ h.toNat - bias < R.length →
          ∃ T X, rrtInvBytes R = .ok T ∧ bstInv T (h.toNat - bias) = .ok X ∧
            ctDec nmax bias (be32 h ++ payload) = .ok X ∧ X.length = R.length))
end

