-- ==== Sys2Proof/Laws/Memory.lean ====
section
/-! SUPPORT. The laws of the buffers: read after write, everything else unchanged, and every operation keeps the
canonical form. -/

namespace Sys2Proof.Machine

@[simp] theorem Memory.read_nil (i : Nat) : Memory.read [] i = none := rfl

/-! ### Read after write -/

@[simp] theorem Memory.read_write_same (m : Memory) (i : Nat) (b : Byte) :
    Memory.read (Memory.write m i b) i = some b := by
  induction m with
  | nil => simp [Memory.write, Memory.read]
  | cons c m ih =>
    obtain ⟨a, v⟩ := c
    simp only [Memory.write]
    split
    · simp [Memory.read]
    · split
      · simp [Memory.read]
      · next _ hne => simp [Memory.read, hne, ih]

theorem Memory.read_write_other (m : Memory) {i j : Nat} (b : Byte) (h : j ≠ i) :
    Memory.read (Memory.write m i b) j = Memory.read m j := by
  induction m with
  | nil => simp [Memory.write, Memory.read, h]
  | cons c m ih =>
    obtain ⟨a, v⟩ := c
    simp only [Memory.write]
    split
    · simp [Memory.read, h]
    · split
      · next _ heq => subst heq; simp [Memory.read, h]
      · simp [Memory.read, ih]

/-- What every byte reads as after consecutive writes: the written bytes in their range, the old bytes elsewhere. -/
theorem Memory.read_writeBytes (bs : List Byte) (m : Memory) (i j : Nat) :
    Memory.read (Memory.writeBytes m i bs) j =
      if i ≤ j ∧ j < i + bs.length then bs[j - i]? else Memory.read m j := by
  induction bs generalizing m i with
  | nil =>
    have : ¬ (i ≤ j ∧ j < i + ([] : List Byte).length) := by simp
    rw [if_neg this]; rfl
  | cons b bs ih =>
    rw [Memory.writeBytes, ih]
    by_cases hij : j = i
    · subst hij
      rw [if_neg (by omega), if_pos (by simp)]
      simp
    · by_cases hin : i + 1 ≤ j ∧ j < i + 1 + bs.length
      · rw [if_pos hin, if_pos (by simp only [List.length_cons]; omega)]
        obtain ⟨k, rfl⟩ : ∃ k, j = i + 1 + k := ⟨j - (i + 1), by omega⟩
        rw [show i + 1 + k - (i + 1) = k by omega, show i + 1 + k - i = k + 1 by omega, List.getElem?_cons_succ]
      · rw [if_neg hin, if_neg (by simp only [List.length_cons]; omega), Memory.read_write_other m b hij]

/-- A buffer made of bytes reads as them, and as nothing elsewhere. -/
theorem Memory.read_ofBytes (bs : List Byte) (i j : Nat) :
    Memory.read (Memory.ofBytes i bs) j = if i ≤ j then bs[j - i]? else none := by
  induction bs generalizing i with
  | nil => simp [Memory.ofBytes]
  | cons b bs ih =>
    simp only [Memory.ofBytes, Memory.read]
    by_cases hij : j = i
    · subst hij; simp
    · rw [if_neg hij, ih]
      by_cases hle : i ≤ j
      · obtain ⟨k, rfl⟩ : ∃ k, j = i + 1 + k := ⟨j - (i + 1), by omega⟩
        rw [if_pos (by omega), if_pos hle, show i + 1 + k - (i + 1) = k by omega,
          show i + 1 + k - i = k + 1 by omega, List.getElem?_cons_succ]
      · rw [if_neg (by omega), if_neg hle]

theorem Memory.read_ofBytes_zero (bs : List Byte) (j : Nat) : Memory.read (Memory.ofBytes 0 bs) j = bs[j]? := by
  simp [Memory.read_ofBytes]

/-! ### The canonical form -/

theorem Memory.risingFrom_write {m : Memory} {lo i : Nat} (b : Byte) (h : Memory.risingFrom lo m = true)
    (hi : lo ≤ i) : Memory.risingFrom lo (Memory.write m i b) = true := by
  induction m generalizing lo with
  | nil => simp [Memory.write, Memory.risingFrom, hi]
  | cons c m ih =>
    obtain ⟨a, v⟩ := c
    simp only [Memory.risingFrom, Bool.and_eq_true, decide_eq_true_eq] at h
    simp only [Memory.write]
    split
    · next hia => simp [Memory.risingFrom, hi, h.2]; omega
    · split
      · next _ heq => subst heq; simp [Memory.risingFrom, hi, h.2]
      · next hnlt hne => simp [Memory.risingFrom, h.1, ih h.2 (by omega)]

/-- A write keeps the canonical form. -/
theorem Memory.wf_write {m : Memory} (i : Nat) (b : Byte) (h : Memory.wf m = true) :
    Memory.wf (Memory.write m i b) = true := Memory.risingFrom_write b h (Nat.zero_le i)

/-- Consecutive writes keep the canonical form. -/
theorem Memory.wf_writeBytes (bs : List Byte) {m : Memory} (i : Nat) (h : Memory.wf m = true) :
    Memory.wf (Memory.writeBytes m i bs) = true := by
  induction bs generalizing m i with
  | nil => exact h
  | cons b bs ih => exact ih (i + 1) (Memory.wf_write i b h)

theorem Memory.risingFrom_ofBytes (bs : List Byte) (i : Nat) : Memory.risingFrom i (Memory.ofBytes i bs) = true := by
  induction bs generalizing i with
  | nil => rfl
  | cons b bs ih => simp [Memory.ofBytes, Memory.risingFrom, ih]

/-- A buffer made of a command's output is in canonical form. -/
@[simp] theorem Memory.wf_ofBytes_zero (bs : List Byte) : Memory.wf (Memory.ofBytes 0 bs) = true :=
  Memory.risingFrom_ofBytes bs 0

@[simp] theorem Memory.wf_nil : Memory.wf [] = true := rfl

@[simp] theorem Memory.within_nil (n : Nat) : Memory.within n [] = true := rfl

theorem Memory.within_write {m : Memory} {n i : Nat} (b : Byte) (h : Memory.within n m = true) (hi : i < n) :
    Memory.within n (Memory.write m i b) = true := by
  induction m with
  | nil => simp [Memory.write, Memory.within, hi]
  | cons c m ih =>
    obtain ⟨a, v⟩ := c
    simp only [Memory.within, List.all_cons, Bool.and_eq_true, decide_eq_true_eq] at h ih ⊢
    simp only [Memory.write]
    split
    · simp only [List.all_cons, Bool.and_eq_true, decide_eq_true_eq]; exact ⟨hi, h.1, h.2⟩
    · split
      · simp only [List.all_cons, Bool.and_eq_true, decide_eq_true_eq]; exact ⟨hi, h.2⟩
      · simp only [List.all_cons, Bool.and_eq_true, decide_eq_true_eq]; exact ⟨h.1, ih h.2⟩

theorem Memory.within_writeBytes (bs : List Byte) {m : Memory} {n i : Nat} (h : Memory.within n m = true)
    (hi : i + bs.length ≤ n) : Memory.within n (Memory.writeBytes m i bs) = true := by
  induction bs generalizing m i with
  | nil => exact h
  | cons b bs ih =>
    simp only [List.length_cons] at hi
    exact ih (Memory.within_write b h (by omega)) (by omega)

theorem Memory.read_eq_none_of_lt {m : Memory} {lo i : Nat} (h : Memory.risingFrom lo m = true) (hi : i < lo) :
    Memory.read m i = none := by
  induction m generalizing lo with
  | nil => rfl
  | cons c m ih =>
    obtain ⟨a, v⟩ := c
    simp only [Memory.risingFrom, Bool.and_eq_true, decide_eq_true_eq] at h
    simp only [Memory.read]
    rw [if_neg (by omega), ih h.2 (by omega)]

/-- Canonical buffers that read alike are equal. -/
theorem Memory.ext_of_wf {m m' : Memory} (h : Memory.wf m = true) (h' : Memory.wf m' = true)
    (heq : ∀ i, Memory.read m i = Memory.read m' i) : m = m' := by
  suffices H : ∀ (m m' : Memory) (lo : Nat), Memory.risingFrom lo m = true → Memory.risingFrom lo m' = true →
      (∀ i, Memory.read m i = Memory.read m' i) → m = m' from H m m' 0 h h' heq
  clear h h' heq m m'
  intro m
  induction m with
  | nil =>
    intro m' lo _ _ heq
    cases m' with
    | nil => rfl
    | cons c m' => obtain ⟨a, v⟩ := c; simpa [Memory.read] using heq a
  | cons c m ih =>
    intro m' lo h h' heq
    obtain ⟨a, v⟩ := c
    cases m' with
    | nil => simpa [Memory.read] using heq a
    | cons c' m' =>
      obtain ⟨a', v'⟩ := c'
      simp only [Memory.risingFrom, Bool.and_eq_true, decide_eq_true_eq] at h h'
      have haa : a = a' := by
        rcases Nat.lt_trichotomy a a' with hlt | he | hlt
        · have := heq a
          simp only [Memory.read, if_true] at this
          rw [if_neg (by omega), Memory.read_eq_none_of_lt h'.2 (by omega)] at this
          cases this
        · exact he
        · have := heq a'
          simp only [Memory.read, if_true] at this
          rw [if_neg (by omega), Memory.read_eq_none_of_lt h.2 (by omega)] at this
          cases this
      subst haa
      have hv : v = v' := by simpa [Memory.read] using heq a
      subst hv
      congr 1
      refine ih m' (a + 1) h.2 h'.2 fun i => ?_
      by_cases hi : i = a
      · subst hi
        rw [Memory.read_eq_none_of_lt h.2 (by omega), Memory.read_eq_none_of_lt h'.2 (by omega)]
      · simpa [Memory.read, hi] using heq i

end Sys2Proof.Machine
end

