-- ==== Sys2Proof/Laws/State.lean ====
section
/-! SUPPORT. One lemma per field of `State` for each named update, so that no proof unfolds a record update. -/

namespace Sys2Proof.Machine

/-! ### `setDone` -/

@[simp] theorem State.setDone_cfg (s : State) : s.setDone.cfg = s.cfg := rfl
@[simp] theorem State.setDone_ilen (s : State) : s.setDone.ilen = s.ilen := rfl
@[simp] theorem State.setDone_olen (s : State) : s.setDone.olen = s.olen := rfl
@[simp] theorem State.setDone_idx (s : State) : s.setDone.idx = s.idx := rfl
@[simp] theorem State.setDone_st (s : State) : s.setDone.st = .done := rfl
@[simp] theorem State.setDone_err (s : State) : s.setDone.err = .none := rfl
@[simp] theorem State.setDone_ibuf (s : State) : s.setDone.ibuf = s.ibuf := rfl
@[simp] theorem State.setDone_obuf (s : State) : s.setDone.obuf = s.obuf := rfl
@[simp] theorem State.setDone_work (s : State) : s.setDone.work = s.work := rfl
@[simp] theorem State.setDone_script (s : State) : s.setDone.script = s.script := rfl
@[simp] theorem State.setDone_reply (s : State) : s.setDone.reply = s.reply := rfl
@[simp] theorem State.setDone_draws (s : State) : s.setDone.draws = s.draws := rfl

/-! ### `setIdle` -/

@[simp] theorem State.setIdle_cfg (s : State) : s.setIdle.cfg = s.cfg := rfl
@[simp] theorem State.setIdle_ilen (s : State) : s.setIdle.ilen = s.ilen := rfl
@[simp] theorem State.setIdle_olen (s : State) : s.setIdle.olen = s.olen := rfl
@[simp] theorem State.setIdle_idx (s : State) : s.setIdle.idx = s.idx := rfl
@[simp] theorem State.setIdle_st (s : State) : s.setIdle.st = .idle := rfl
@[simp] theorem State.setIdle_err (s : State) : s.setIdle.err = .none := rfl
@[simp] theorem State.setIdle_ibuf (s : State) : s.setIdle.ibuf = s.ibuf := rfl
@[simp] theorem State.setIdle_obuf (s : State) : s.setIdle.obuf = s.obuf := rfl
@[simp] theorem State.setIdle_work (s : State) : s.setIdle.work = s.work := rfl
@[simp] theorem State.setIdle_script (s : State) : s.setIdle.script = s.script := rfl
@[simp] theorem State.setIdle_reply (s : State) : s.setIdle.reply = s.reply := rfl
@[simp] theorem State.setIdle_draws (s : State) : s.setIdle.draws = s.draws := rfl

/-! ### `setError` -/

@[simp] theorem State.setError_cfg (e : ErrCode) (s : State) : (s.setError e).cfg = s.cfg := rfl
@[simp] theorem State.setError_ilen (e : ErrCode) (s : State) : (s.setError e).ilen = s.ilen := rfl
@[simp] theorem State.setError_olen (e : ErrCode) (s : State) : (s.setError e).olen = s.olen := rfl
@[simp] theorem State.setError_idx (e : ErrCode) (s : State) : (s.setError e).idx = s.idx := rfl
@[simp] theorem State.setError_st (e : ErrCode) (s : State) : (s.setError e).st = .error := rfl
@[simp] theorem State.setError_err (e : ErrCode) (s : State) : (s.setError e).err = e := rfl
@[simp] theorem State.setError_ibuf (e : ErrCode) (s : State) : (s.setError e).ibuf = s.ibuf := rfl
@[simp] theorem State.setError_obuf (e : ErrCode) (s : State) : (s.setError e).obuf = s.obuf := rfl
@[simp] theorem State.setError_work (e : ErrCode) (s : State) : (s.setError e).work = s.work := rfl
@[simp] theorem State.setError_script (e : ErrCode) (s : State) : (s.setError e).script = s.script := rfl
@[simp] theorem State.setError_reply (e : ErrCode) (s : State) : (s.setError e).reply = s.reply := rfl
@[simp] theorem State.setError_draws (e : ErrCode) (s : State) : (s.setError e).draws = s.draws := rfl

/-! ### `nextDraw` -/

@[simp] theorem State.nextDraw_cfg (s : State) : s.nextDraw.cfg = s.cfg := rfl
@[simp] theorem State.nextDraw_ilen (s : State) : s.nextDraw.ilen = s.ilen := rfl
@[simp] theorem State.nextDraw_olen (s : State) : s.nextDraw.olen = s.olen := rfl
@[simp] theorem State.nextDraw_idx (s : State) : s.nextDraw.idx = s.idx := rfl
@[simp] theorem State.nextDraw_st (s : State) : s.nextDraw.st = s.st := rfl
@[simp] theorem State.nextDraw_err (s : State) : s.nextDraw.err = s.err := rfl
@[simp] theorem State.nextDraw_ibuf (s : State) : s.nextDraw.ibuf = s.ibuf := rfl
@[simp] theorem State.nextDraw_obuf (s : State) : s.nextDraw.obuf = s.obuf := rfl
@[simp] theorem State.nextDraw_work (s : State) : s.nextDraw.work = s.work := rfl
@[simp] theorem State.nextDraw_script (s : State) : s.nextDraw.script = s.script := rfl
@[simp] theorem State.nextDraw_reply (s : State) : s.nextDraw.reply = s.reply := rfl
@[simp] theorem State.nextDraw_draws (s : State) : s.nextDraw.draws = s.draws + 1 := rfl

/-! ### `raise` -/

@[simp] theorem State.raise_cfg (e : ErrCode) (s : State) : (s.raise e).cfg = s.cfg := rfl
@[simp] theorem State.raise_ilen (e : ErrCode) (s : State) : (s.raise e).ilen = s.ilen := rfl
@[simp] theorem State.raise_olen (e : ErrCode) (s : State) : (s.raise e).olen = 0 := rfl
@[simp] theorem State.raise_idx (e : ErrCode) (s : State) : (s.raise e).idx = s.idx := rfl
@[simp] theorem State.raise_st (e : ErrCode) (s : State) : (s.raise e).st = .error := rfl
@[simp] theorem State.raise_err (e : ErrCode) (s : State) : (s.raise e).err = e := rfl
@[simp] theorem State.raise_ibuf (e : ErrCode) (s : State) : (s.raise e).ibuf = s.ibuf := rfl
@[simp] theorem State.raise_obuf (e : ErrCode) (s : State) : (s.raise e).obuf = [] := rfl
@[simp] theorem State.raise_work (e : ErrCode) (s : State) : (s.raise e).work = Work.discarded := rfl
@[simp] theorem State.raise_script (e : ErrCode) (s : State) : (s.raise e).script = s.script := rfl
@[simp] theorem State.raise_reply (e : ErrCode) (s : State) : (s.raise e).reply = s.reply := rfl
@[simp] theorem State.raise_draws (e : ErrCode) (s : State) : (s.raise e).draws = s.draws := rfl

/-! ### `clearError` -/

@[simp] theorem State.clearError_cfg (s : State) : s.clearError.cfg = s.cfg := rfl
@[simp] theorem State.clearError_ilen (s : State) : s.clearError.ilen = s.ilen := rfl
@[simp] theorem State.clearError_olen (s : State) : s.clearError.olen = s.olen := rfl
@[simp] theorem State.clearError_idx (s : State) : s.clearError.idx = s.idx := rfl
@[simp] theorem State.clearError_st (s : State) : s.clearError.st = .idle := rfl
@[simp] theorem State.clearError_err (s : State) : s.clearError.err = .none := rfl
@[simp] theorem State.clearError_ibuf (s : State) : s.clearError.ibuf = s.ibuf := rfl
@[simp] theorem State.clearError_obuf (s : State) : s.clearError.obuf = s.obuf := rfl
@[simp] theorem State.clearError_work (s : State) : s.clearError.work = s.work := rfl
@[simp] theorem State.clearError_script (s : State) : s.clearError.script = s.script := rfl
@[simp] theorem State.clearError_reply (s : State) : s.clearError.reply = s.reply := rfl
@[simp] theorem State.clearError_draws (s : State) : s.clearError.draws = s.draws := rfl

/-! ### `hardReset` -/

@[simp] theorem State.hardReset_cfg (s : State) : s.hardReset.cfg = s.cfg := rfl
@[simp] theorem State.hardReset_ilen (s : State) : s.hardReset.ilen = 0 := rfl
@[simp] theorem State.hardReset_olen (s : State) : s.hardReset.olen = 0 := rfl
@[simp] theorem State.hardReset_idx (s : State) : s.hardReset.idx = 0 := rfl
@[simp] theorem State.hardReset_st (s : State) : s.hardReset.st = .idle := rfl
@[simp] theorem State.hardReset_err (s : State) : s.hardReset.err = .none := rfl
@[simp] theorem State.hardReset_ibuf (s : State) : s.hardReset.ibuf = [] := rfl
@[simp] theorem State.hardReset_obuf (s : State) : s.hardReset.obuf = [] := rfl
@[simp] theorem State.hardReset_work (s : State) : s.hardReset.work = Work.discarded := rfl
@[simp] theorem State.hardReset_script (s : State) : s.hardReset.script = s.script := rfl
@[simp] theorem State.hardReset_reply (s : State) : s.hardReset.reply = s.reply := rfl
@[simp] theorem State.hardReset_draws (s : State) : s.hardReset.draws = s.draws := rfl

/-! ### `moveOutput` -/

@[simp] theorem State.moveOutput_cfg (s : State) : s.moveOutput.cfg = s.cfg := rfl
@[simp] theorem State.moveOutput_ilen (s : State) : s.moveOutput.ilen = s.olen := rfl
@[simp] theorem State.moveOutput_olen (s : State) : s.moveOutput.olen = s.olen := rfl
@[simp] theorem State.moveOutput_idx (s : State) : s.moveOutput.idx = s.idx := rfl
@[simp] theorem State.moveOutput_st (s : State) : s.moveOutput.st = .done := rfl
@[simp] theorem State.moveOutput_err (s : State) : s.moveOutput.err = .none := rfl
@[simp] theorem State.moveOutput_ibuf (s : State) : s.moveOutput.ibuf = Memory.writeBytes s.ibuf 0 s.output := rfl
@[simp] theorem State.moveOutput_obuf (s : State) : s.moveOutput.obuf = s.obuf := rfl
@[simp] theorem State.moveOutput_work (s : State) : s.moveOutput.work = s.work := rfl
@[simp] theorem State.moveOutput_script (s : State) : s.moveOutput.script = s.script := rfl
@[simp] theorem State.moveOutput_reply (s : State) : s.moveOutput.reply = s.reply := rfl
@[simp] theorem State.moveOutput_draws (s : State) : s.moveOutput.draws = s.draws + 1 := rfl

/-! ### `beginRcDec` -/

@[simp] theorem State.beginRcDec_cfg (s : State) : s.beginRcDec.cfg = s.cfg := rfl
@[simp] theorem State.beginRcDec_ilen (s : State) : s.beginRcDec.ilen = s.ilen := rfl
@[simp] theorem State.beginRcDec_olen (s : State) : s.beginRcDec.olen = s.olen := rfl
@[simp] theorem State.beginRcDec_idx (s : State) : s.beginRcDec.idx = s.idx := rfl
@[simp] theorem State.beginRcDec_st (s : State) : s.beginRcDec.st = .busy := rfl
@[simp] theorem State.beginRcDec_err (s : State) : s.beginRcDec.err = .none := rfl
@[simp] theorem State.beginRcDec_ibuf (s : State) : s.beginRcDec.ibuf = s.ibuf := rfl
@[simp] theorem State.beginRcDec_obuf (s : State) : s.beginRcDec.obuf = s.obuf := rfl
@[simp] theorem State.beginRcDec_work (s : State) :
    s.beginRcDec.work = { kind := .stream, src := s.input, q := 0, out := [], idxw := 0 } := rfl
@[simp] theorem State.beginRcDec_script (s : State) : s.beginRcDec.script = s.script := rfl
@[simp] theorem State.beginRcDec_reply (s : State) : s.beginRcDec.reply = s.reply := rfl
@[simp] theorem State.beginRcDec_draws (s : State) : s.beginRcDec.draws = s.draws + 1 := rfl

/-! ### `beginCtDec` -/

@[simp] theorem State.beginCtDec_cfg (s : State) : s.beginCtDec.cfg = s.cfg := rfl
@[simp] theorem State.beginCtDec_ilen (s : State) : s.beginCtDec.ilen = s.ilen := rfl
@[simp] theorem State.beginCtDec_olen (s : State) : s.beginCtDec.olen = s.olen := rfl
@[simp] theorem State.beginCtDec_idx (s : State) : s.beginCtDec.idx = s.idx := rfl
@[simp] theorem State.beginCtDec_st (s : State) : s.beginCtDec.st = .busy := rfl
@[simp] theorem State.beginCtDec_err (s : State) : s.beginCtDec.err = .none := rfl
@[simp] theorem State.beginCtDec_ibuf (s : State) : s.beginCtDec.ibuf = s.ibuf := rfl
@[simp] theorem State.beginCtDec_obuf (s : State) : s.beginCtDec.obuf = s.obuf := rfl
@[simp] theorem State.beginCtDec_work (s : State) :
    s.beginCtDec.work = { kind := .header, src := s.input, q := 0, out := [], idxw := 0 } := rfl
@[simp] theorem State.beginCtDec_script (s : State) : s.beginCtDec.script = s.script := rfl
@[simp] theorem State.beginCtDec_reply (s : State) : s.beginCtDec.reply = s.reply := rfl
@[simp] theorem State.beginCtDec_draws (s : State) : s.beginCtDec.draws = s.draws + 1 := rfl

/-! ### `resetOf` -/

@[simp] theorem State.resetOf_cfg (cfg : Config) : (State.resetOf cfg).cfg = cfg := rfl
@[simp] theorem State.resetOf_ilen (cfg : Config) : (State.resetOf cfg).ilen = 0 := rfl
@[simp] theorem State.resetOf_olen (cfg : Config) : (State.resetOf cfg).olen = 0 := rfl
@[simp] theorem State.resetOf_idx (cfg : Config) : (State.resetOf cfg).idx = 0 := rfl
@[simp] theorem State.resetOf_st (cfg : Config) : (State.resetOf cfg).st = .idle := rfl
@[simp] theorem State.resetOf_err (cfg : Config) : (State.resetOf cfg).err = .none := rfl
@[simp] theorem State.resetOf_ibuf (cfg : Config) : (State.resetOf cfg).ibuf = [] := rfl
@[simp] theorem State.resetOf_obuf (cfg : Config) : (State.resetOf cfg).obuf = [] := rfl
@[simp] theorem State.resetOf_work (cfg : Config) : (State.resetOf cfg).work = Work.discarded := rfl
@[simp] theorem State.resetOf_script (cfg : Config) : (State.resetOf cfg).script = [] := rfl
@[simp] theorem State.resetOf_reply (cfg : Config) : (State.resetOf cfg).reply = none := rfl
@[simp] theorem State.resetOf_draws (cfg : Config) : (State.resetOf cfg).draws = 0 := rfl

end Sys2Proof.Machine
end

