-- ==== Sys2Proof/Laws/Ops.lean ====
section
/-! SUPPORT. One lemma per shared operation that says everything it can do: the gate of the status machine, the input
and output streams, delivering a result, error entry. -/

namespace Sys2Proof.Machine

/-! ### The gate -/

theorem whenAccepting_of_accepting {s : State} (run : State → State) (h : s.Accepting) :
    whenAccepting run s = .next (run s) := by
  rcases h with h | h <;> simp [whenAccepting, h]

theorem whenAccepting_of_error {s : State} (run : State → State) (h : s.st = .error) :
    whenAccepting run s = .next s := by simp [whenAccepting, h]

theorem whenAccepting_of_busy {s : State} (run : State → State) (h : s.st = .busy) :
    whenAccepting run s = .refused .accessWhileBusy := by simp [whenAccepting, h]

/-- Everything a gated command can do. -/
theorem whenAccepting_cases {run : State → State} {s t : State} (h : whenAccepting run s = .next t) :
    (s.Accepting ∧ t = run s) ∨ (s.st = .error ∧ t = s) := by
  cases hst : s.st <;> simp only [whenAccepting, hst] at h <;> cases h
  · exact .inl ⟨.inl hst, rfl⟩
  · exact .inl ⟨.inr hst, rfl⟩
  · exact .inr ⟨rfl, rfl⟩

theorem unlessBusy_of_ne {s : State} (run : State → State) (h : s.st ≠ .busy) :
    unlessBusy run s = .next (run s) := by
  cases hst : s.st <;> simp_all [unlessBusy]

theorem unlessBusy_of_busy {s : State} (run : State → State) (h : s.st = .busy) :
    unlessBusy run s = .refused .accessWhileBusy := by simp [unlessBusy, h]

theorem unlessBusy_cases {run : State → State} {s t : State} (h : unlessBusy run s = .next t) :
    s.st ≠ .busy ∧ t = run s := by
  cases hst : s.st <;> simp only [unlessBusy, hst] at h <;> cases h <;> simp

theorem State.Accepting.ne_busy {s : State} (h : s.Accepting) : s.st ≠ .busy := by
  rcases h with h | h <;> simp [h]

theorem State.Accepting.ne_error {s : State} (h : s.Accepting) : s.st ≠ .error := by
  rcases h with h | h <;> simp [h]

/-! ### Streams -/

@[simp] theorem State.streamOf_length (s : State) (m : Memory) (n : Nat) : (s.streamOf m n).length = n := by
  simp [State.streamOf]

theorem State.streamOf_getElem? (s : State) (m : Memory) {n i : Nat} (h : i < n) :
    (s.streamOf m n)[i]? = some (s.drawByte m i) := by
  simp [State.streamOf, h]

theorem State.drawByte_of_read {s : State} {m : Memory} {i : Nat} {b : Byte} (h : Memory.read m i = some b) :
    s.drawByte m i = b := by simp [State.drawByte, h]

@[simp] theorem State.input_length (s : State) : s.input.length = s.ilen.toNat := by simp [State.input]

@[simp] theorem State.output_length (s : State) : s.output.length = s.olen.toNat := by simp [State.output]

/-- The input stream the engine reads agrees with every specified byte of `IBUF`. -/
theorem State.input_agrees (s : State) : s.InputAgrees s.input := by
  refine ⟨s.input_length, fun i b hi hb => ?_⟩
  rw [State.input, State.streamOf_getElem? s s.ibuf (by simpa using hi), State.drawByte_of_read hb]

/-- The output stream `MOV` reads agrees with every specified byte of `OBUF`. -/
theorem State.output_agrees (s : State) : s.OutputAgrees s.output := by
  refine ⟨s.output_length, fun i b hi hb => ?_⟩
  rw [State.output, State.streamOf_getElem? s s.obuf (by simpa using hi), State.drawByte_of_read hb]

/-- Where the host has written the whole stream, the engine reads exactly it. -/
theorem State.InputIs.input_eq {s : State} {X : List Byte} (h : s.InputIs X) : s.input = X := by
  refine List.ext_getElem? fun i => ?_
  by_cases hi : i < X.length
  · have hx : X[i]? = some X[i] := List.getElem?_eq_getElem hi
    rw [State.input, State.streamOf_getElem? s s.ibuf (by rw [h.1]; exact hi),
      State.drawByte_of_read ((h.2 i hi).trans hx), hx]
  · rw [List.getElem?_eq_none (by rw [s.input_length, h.1]; omega), List.getElem?_eq_none (by omega)]

/-! ### Results -/

theorem State.deliver_of_fits {Y : List Byte} {s : State} (h : Y.length ≤ s.cfg.nmax) :
    s.deliver Y =
      { s.setDone with
        obuf := Memory.ofBytes 0 Y
        olen := BitVec.ofNat 32 Y.length
        work := Work.discarded } := by
  simp [State.deliver, Nat.not_lt.mpr h]

theorem State.deliver_of_overflow {Y : List Byte} {s : State} (h : s.cfg.nmax < Y.length) :
    s.deliver Y = s.raise .capacity := by simp [State.deliver, h]

/-- The frame and the result of a delivery that fits. -/
theorem State.deliver_delivered {Y : List Byte} {s : State} (h : Y.length ≤ s.cfg.nmax) :
    Delivered s (s.deliver Y) Y := by
  rw [State.deliver_of_fits h]
  have hlt := s.cfg.nmax_lt
  exact {
    frame := ⟨rfl, rfl, rfl, rfl, rfl⟩
    fits := h
    olen := by simp only [BitVec.toNat_ofNat]; exact Nat.mod_eq_of_lt (by omega)
    obuf := fun i => Memory.read_ofBytes_zero Y i
    st := rfl
    err := rfl }

@[simp] theorem State.deliver_idx (Y : List Byte) (s : State) : (s.deliver Y).idx = s.idx := by
  unfold State.deliver; split <;> rfl

@[simp] theorem State.deliver_draws (Y : List Byte) (s : State) : (s.deliver Y).draws = s.draws := by
  unfold State.deliver; split <;> rfl

@[simp] theorem State.deliver_work (Y : List Byte) (s : State) : (s.deliver Y).work = Work.discarded := by
  unfold State.deliver; split <;> rfl

/-- Error entry is what 60_exceptions.md R266 says. -/
theorem State.raise_entered (e : ErrCode) (s : State) : ErrorEntered s (s.raise e) e where
  frame := ⟨rfl, rfl, rfl, rfl, rfl⟩
  idx := rfl
  st := rfl
  err := rfl
  olen := rfl
  obuf := fun _ => rfl

@[simp] theorem State.conclude_ok (Y : List Byte) (s : State) : s.conclude (.ok Y) = s.deliver Y := rfl

@[simp] theorem State.conclude_error (e : ErrCode) (s : State) : s.conclude (.error e) = s.raise e := rfl

/-- The number of draws is no part of what a delivery or an error leaves. -/
theorem Delivered.of_nextDraw {s t : State} {Y : List Byte} (h : Delivered s.nextDraw t Y) : Delivered s t Y :=
  ⟨⟨h.frame.cfg, h.frame.ilen, h.frame.ibuf, h.frame.script, h.frame.reply⟩, h.fits, h.olen, h.obuf, h.st, h.err⟩

theorem ErrorEntered.of_nextDraw {s t : State} {e : ErrCode} (h : ErrorEntered s.nextDraw t e) :
    ErrorEntered s t e :=
  ⟨⟨h.frame.cfg, h.frame.ilen, h.frame.ibuf, h.frame.script, h.frame.reply⟩, h.idx, h.st, h.err, h.olen, h.obuf⟩

/-! ### Input that does not fit -/

theorem State.withInput_of_fits {s : State} (run : List Byte → State → State) (h : s.ilen.toNat ≤ s.cfg.nmax) :
    s.withInput run = run s.input s.nextDraw := by simp [State.withInput, Nat.not_lt.mpr h]

theorem State.withInput_of_overflow {s : State} (run : List Byte → State → State) (h : s.cfg.nmax < s.ilen.toNat) :
    s.withInput run = s.raise .capacity := by simp [State.withInput, h]

/-- A transform command whose input fits, ending in a delivery. -/
theorem transform_delivers {s : State} (hs : s.Accepting) (hn : s.ilen.toNat ≤ s.cfg.nmax)
    (run : List Byte → State → State) {Y : List Byte} (hrun : run s.input s.nextDraw = s.nextDraw.deliver Y)
    (hY : Y.length ≤ s.cfg.nmax) :
    ∃ t, whenAccepting (State.withInput run) s = .next t ∧ Delivered s t Y ∧ t.idx = s.idx := by
  refine ⟨s.nextDraw.deliver Y, ?_, (State.deliver_delivered (by simpa using hY)).of_nextDraw, by simp⟩
  rw [whenAccepting_of_accepting _ hs, State.withInput_of_fits run hn, hrun]

/-- A transform command whose input does not fit (60_exceptions.md R263). -/
theorem transform_overflow {s : State} (hs : s.Accepting) (hn : s.cfg.nmax < s.ilen.toNat)
    (run : List Byte → State → State) :
    ∃ t, whenAccepting (State.withInput run) s = .next t ∧ ErrorEntered s t .capacity :=
  ⟨_, by rw [whenAccepting_of_accepting _ hs, State.withInput_of_overflow run hn], s.raise_entered .capacity⟩

end Sys2Proof.Machine
end

