-- ==== Sys2Proof/Laws/Exec.lean ====
section
/-! SUPPORT. Each instruction as the shared operations it is made of, and what every command does in `ERROR` and in
`BUSY`. -/

namespace Sys2Proof.Machine

theorem exec_nop (s : State) : exec .nop s = unlessBusy (fun s => s) s := rfl

theorem exec_clr (s : State) : exec .clr s = unlessBusy State.clearError s := rfl

theorem exec_mov (s : State) : exec .mov s = whenAccepting State.moveOutput s := rfl

theorem exec_reservedCmd (c : Byte) (s : State) :
    exec (.reservedCmd c) s = whenAccepting (State.raise .illegalCommand) s := rfl

theorem exec_bstFwd (s : State) :
    exec .bstFwd s = whenAccepting (State.withInput fun X s =>
      { s.deliver (bstFwd X).1 with idx := BitVec.ofNat 32 (bstFwd X).2 }) s := rfl

theorem exec_bstInv (s : State) :
    exec .bstInv s = whenAccepting (State.withInput fun T s => s.conclude (bstInv T s.idx.toNat)) s := rfl

theorem exec_rrtFwd (s : State) :
    exec .rrtFwd s = whenAccepting (State.withInput fun X s => s.deliver (rrtFwd X)) s := rfl

theorem exec_rrtInv (s : State) :
    exec .rrtInv s = whenAccepting (State.withInput fun R s => s.conclude (rrtInvBytes R)) s := rfl

theorem exec_rcEnc (s : State) :
    exec .rcEnc s = whenAccepting (State.withInput fun S s => s.deliver (rcEnc S)) s := rfl

theorem exec_rcDec (s : State) :
    exec .rcDec s = whenAccepting (State.withInput fun B s => s.conclude (rcDecScan s.cfg.nmax B)) s := rfl

theorem exec_ctEnc (s : State) :
    exec .ctEnc s = whenAccepting (State.withFramer (State.withInput fun X s =>
      s.deliver (ctEnc s.cfg.hdrBias.val X))) s := rfl

theorem exec_ctDec (s : State) :
    exec .ctDec s = whenAccepting (State.withFramer (State.withInput fun C s =>
      s.conclude (ctDec s.cfg.nmax s.cfg.hdrBias.val C))) s := rfl

theorem exec_rep (len : BitVec 7) (val : Byte) (s : State) :
    exec (.rep len val) s = .next (s.runRecord (List.replicate len.toNat val) 2) := rfl

theorem exec_raw (lits : List Byte) (s : State) :
    exec (.raw lits) s = .next (s.runRecord lits (1 + lits.length)) := rfl

theorem exec_hdrStore (s : State) :
    exec .hdrStore s = .next (s.deliver (s.work.src.drop Config.headerBytes)) := rfl

/-- What `BST.FWD` does with its input stream. -/
def bstFwdRun (X : List Byte) (s : State) : State :=
  { s.deliver (bstFwd X).1 with idx := BitVec.ofNat 32 (bstFwd X).2 }

/-- What a command other than `NOP` and `CLR` does when it runs. -/
def commandRun : Instr → State → State
  | .bstFwd => State.withInput bstFwdRun
  | .bstInv => State.withInput fun T s => s.conclude (bstInv T s.idx.toNat)
  | .rrtFwd => State.withInput fun X s => s.deliver (rrtFwd X)
  | .rrtInv => State.withInput fun R s => s.conclude (rrtInvBytes R)
  | .rcEnc => State.withInput fun S s => s.deliver (rcEnc S)
  | .rcDec => State.withInput fun B s => s.conclude (rcDecScan s.cfg.nmax B)
  | .ctEnc => State.withFramer (State.withInput fun X s => s.deliver (ctEnc s.cfg.hdrBias.val X))
  | .ctDec => State.withFramer (State.withInput fun C s =>
      s.conclude (ctDec s.cfg.nmax s.cfg.hdrBias.val C))
  | .mov => State.moveOutput
  | .reservedCmd _ => State.raise .illegalCommand
  | .clr => State.clearError
  | .nop => fun s => s
  | .rep _ _ => fun s => s
  | .raw _ => fun s => s
  | .hdrStore => fun s => s
  | .hdrComp _ => fun s => s

/-- Every command but `NOP` and `CLR` is its run behind the gate (60_exceptions.md R270). -/
theorem exec_gated {i : Instr} (s : State) (hi : i.space = .command) (hn : i ≠ .nop) (hc : i ≠ .clr) :
    exec i s = whenAccepting (commandRun i) s := by
  cases i with
  | nop => exact absurd rfl hn
  | clr => exact absurd rfl hc
  | rep _ _ => cases hi
  | raw _ => cases hi
  | hdrStore => cases hi
  | hdrComp _ => cases hi
  | bstFwd => rfl
  | bstInv => rfl
  | rrtFwd => rfl
  | rrtInv => rfl
  | rcEnc => rfl
  | rcDec => rfl
  | ctEnc => rfl
  | ctDec => rfl
  | mov => rfl
  | reservedCmd _ => rfl

/-- A host action is not blocked while no command runs. -/
theorem HostAction.blocked_of_ne {a : HostAction} {s : State} (h : s.st ≠ .busy) : a.blocked s = false := by
  simp [HostAction.blocked, h]

/-- The decoder of command words gives commands only. -/
theorem decodeCommand_space (hasFramer : Bool) (c : Byte) : (decodeCommand hasFramer c).space = .command := by
  revert hasFramer c
  decide

/-! ### What status a command can end in -/

theorem State.deliver_st (Y : List Byte) (s : State) : (s.deliver Y).st = .done ∨ (s.deliver Y).st = .error := by
  unfold State.deliver
  split <;> simp

theorem State.conclude_st (r : Except ErrCode (List Byte)) (s : State) :
    (s.conclude r).st = .done ∨ (s.conclude r).st = .error := by
  cases r with
  | ok Y => exact s.deliver_st Y
  | error e => exact .inr rfl

theorem State.withInput_st {run : List Byte → State → State}
    (h : ∀ X s, (run X s).st = .done ∨ (run X s).st = .error) (s : State) :
    (s.withInput run).st = .done ∨ (s.withInput run).st = .error := by
  unfold State.withInput
  split
  · exact .inr rfl
  · exact h _ _

theorem State.withFramer_st {run : State → State} (h : ∀ s, (run s).st = .done ∨ (run s).st = .error) (s : State) :
    (s.withFramer run).st = .done ∨ (s.withFramer run).st = .error := by
  unfold State.withFramer
  split
  · exact h s
  · exact .inr rfl

/-- A gated command that runs ends in `DONE` or `ERROR`. -/
theorem commandRun_st {i : Instr} (hi : i.space = .command) (hn : i ≠ .nop) (hc : i ≠ .clr) (s : State) :
    (commandRun i s).st = .done ∨ (commandRun i s).st = .error := by
  cases i with
  | nop => exact absurd rfl hn
  | clr => exact absurd rfl hc
  | rep _ _ => cases hi
  | raw _ => cases hi
  | hdrStore => cases hi
  | hdrComp _ => cases hi
  | bstFwd => simp only [commandRun]; exact State.withInput_st (run := bstFwdRun) (fun X s => s.deliver_st (bstFwd X).1) s
  | bstInv => simp only [commandRun]; exact State.withInput_st (fun X s => s.conclude_st _) s
  | rrtFwd => simp only [commandRun]; exact State.withInput_st (fun X s => s.deliver_st _) s
  | rrtInv => simp only [commandRun]; exact State.withInput_st (fun X s => s.conclude_st _) s
  | rcEnc => simp only [commandRun]; exact State.withInput_st (fun X s => s.deliver_st _) s
  | rcDec => simp only [commandRun]; exact State.withInput_st (fun X s => s.conclude_st _) s
  | ctEnc => simp only [commandRun]; exact State.withFramer_st (fun s => State.withInput_st (fun X s => s.deliver_st _) s) s
  | ctDec => simp only [commandRun]; exact State.withFramer_st (fun s => State.withInput_st (fun X s => s.conclude_st _) s) s
  | mov => exact .inl rfl
  | reservedCmd _ => exact .inr rfl

end Sys2Proof.Machine
end

