-- ==== Sys2Proof/Laws/PerInstr.lean ====
section
/-! SUPPORT. A statement for every instruction as syntax: how many bytes its encoding takes (30_encoding.md R100, R107,
R113). -/

namespace Sys2Proof.Laws.EncodedLength

/-- A command is one byte, a repeat record two, a raw record one more than its literals, a header four. -/
def Statement : Instr → Prop
  | .rep len val => (encode (.rep len val)).length = 2
  | .raw lits => (encode (.raw lits)).length = 1 + lits.length
  | .hdrStore => (encode .hdrStore).length = 4
  | .hdrComp h => (encode (.hdrComp h)).length = 4
  | .nop => (encode .nop).length = 1
  | .bstFwd => (encode .bstFwd).length = 1
  | .bstInv => (encode .bstInv).length = 1
  | .rrtFwd => (encode .rrtFwd).length = 1
  | .rrtInv => (encode .rrtInv).length = 1
  | .rcEnc => (encode .rcEnc).length = 1
  | .rcDec => (encode .rcDec).length = 1
  | .ctEnc => (encode .ctEnc).length = 1
  | .ctDec => (encode .ctDec).length = 1
  | .mov => (encode .mov).length = 1
  | .clr => (encode .clr).length = 1
  | .reservedCmd c => (encode (.reservedCmd c)).length = 1

theorem nop : Statement .nop := rfl
theorem bstFwd : Statement .bstFwd := rfl
theorem bstInv : Statement .bstInv := rfl
theorem rrtFwd : Statement .rrtFwd := rfl
theorem rrtInv : Statement .rrtInv := rfl
theorem rcEnc : Statement .rcEnc := rfl
theorem rcDec : Statement .rcDec := rfl
theorem ctEnc : Statement .ctEnc := rfl
theorem ctDec : Statement .ctDec := rfl
theorem mov : Statement .mov := rfl
theorem clr : Statement .clr := rfl
theorem reservedCmd (c : Byte) : Statement (.reservedCmd c) := rfl
theorem rep (len : BitVec 7) (val : Byte) : Statement (.rep len val) := rfl
theorem raw (lits : List Byte) : Statement (.raw lits) := by
  simp [Statement, encode, Nat.add_comm]
theorem hdrStore : Statement .hdrStore := rfl
theorem hdrComp (h : Word32) : Statement (.hdrComp h) := rfl

end Sys2Proof.Laws.EncodedLength
end

