-- ==== Sys2Proof/Laws/Stages.lean ====
section
/-! SUPPORT. The small lemmas of the stage functions: lengths, the arrangement `ROT`, the one-record unfolding of the
scans, the all-equal input. -/

namespace Sys2Proof.Machine

/-! ### Block-Sort Transform -/

theorem insertOffset_perm (X : List Byte) (a : Nat) (l : List Nat) : (insertOffset X a l).Perm (a :: l) := by
  induction l with
  | nil => exact List.Perm.refl _
  | cons b l ih =>
    simp only [insertOffset]
    split
    · exact List.Perm.refl _
    · exact (ih.cons b).trans (List.Perm.swap a b l)

theorem foldr_insertOffset_perm (X : List Byte) (l : List Nat) : (l.foldr (insertOffset X) []).Perm l := by
  induction l with
  | nil => exact List.Perm.refl _
  | cons a l ih => exact (insertOffset_perm X a _).trans (ih.cons a)

/-- `ROT` holds each offset once (40_bst.md R133). -/
theorem rot_perm (X : List Byte) : (rot X).Perm (List.range X.length) := foldr_insertOffset_perm X _

@[simp] theorem rot_length (X : List Byte) : (rot X).length = X.length := by
  simpa using (rot_perm X).length_eq

@[simp] theorem bstFwd_length (X : List Byte) : (bstFwd X).1.length = X.length := by simp [bstFwd]

theorem bstFwd_nil : bstFwd [] = ([], 0) := rfl

theorem bstFwd_idx_lt {X : List Byte} (h : X ≠ []) : (bstFwd X).2 < X.length := by
  have hmem : (0 : Nat) ∈ rot X := (rot_perm X).mem_iff.mpr (by simpa using List.length_pos_iff.mpr h)
  simpa [bstFwd] using List.idxOf_lt_length_of_mem hmem

theorem bstFwd_idx_le (X : List Byte) : (bstFwd X).2 ≤ X.length := by
  by_cases h : X = []
  · subst h; simp [bstFwd_nil]
  · exact (bstFwd_idx_lt h).le

@[simp] theorem lfMapFrom_length (T seen rest : List Byte) : (lfMapFrom T seen rest).length = rest.length := by
  induction rest generalizing seen with
  | nil => rfl
  | cons v rest ih => simp [lfMapFrom, ih]

@[simp] theorem lfMap_length (T : List Byte) : (lfMap T).length = T.length := lfMapFrom_length T [] T

@[simp] theorem walkBack_length (T : List Byte) (map : List Nat) (k cur : Nat) (found : List Byte) :
    (walkBack T map k cur found).length = k + found.length := by
  induction k generalizing cur found with
  | zero => simp [walkBack]
  | succ k ih => simp [walkBack, ih]; omega

/-- What `BstInv` can answer (40_bst.md R139, R146). -/
theorem bstInv_of_lt {T : List Byte} {idx0 : Nat} (h : idx0 < T.length) :
    bstInv T idx0 = .ok (walkBack T (lfMap T) T.length idx0 []) := by
  simp [bstInv, Nat.not_le.mpr h, Nat.ne_of_gt (Nat.zero_lt_of_lt h)]

theorem bstInv_nil_zero : bstInv [] 0 = .ok [] := rfl

theorem bstInv_ok_length {T : List Byte} {idx0 : Nat} {Y : List Byte} (h : bstInv T idx0 = .ok Y) :
    Y.length = T.length := by
  unfold bstInv at h
  split at h
  · split at h
    · cases h
    · next h0 _ => cases h; simp [h0]
  · split at h
    · cases h
    · cases h; simp

theorem compareBytes_self (xs : List Byte) : compareBytes xs xs = .eq := by
  induction xs with
  | nil => rfl
  | cons x xs ih => simp [compareBytes, ih]

theorem rotation_replicate (n a : Nat) (b : Byte) (h : a ≤ n) :
    rotation (List.replicate n b) a = List.replicate n b := by
  simp [rotation, List.replicate_append_replicate]
  omega

/-- On equal bytes the arrangement is by offset alone: inserting below a rising list puts the offset first. -/
theorem rot_replicate (n : Nat) (b : Byte) : rot (List.replicate n b) = List.range n := by
  have key : ∀ k m, k + m = n →
      ((List.range' k m).foldr (insertOffset (List.replicate n b)) []) = List.range' k m := by
    intro k m
    induction m generalizing k with
    | zero => intro _; rfl
    | succ m ih =>
      intro hkm
      rw [List.range'_succ, List.foldr_cons, ih (k + 1) (by omega)]
      cases m with
      | zero => rfl
      | succ m =>
        simp only [List.range'_succ, insertOffset]
        rw [if_pos]
        simp [sortsUpTo, rotation_replicate n k b (by omega), rotation_replicate n (k + 1) b (by omega),
          compareBytes_self]
  simpa [rot, List.range_eq_range'] using key 0 n (by omega)

theorem byteBefore_replicate {n r : Nat} (b : Byte) (h : r < n) : byteBefore (List.replicate n b) r = b := by
  unfold byteBefore
  split
  · rw [List.getD_eq_getElem _ _ (by simp; omega)]; simp
  · rw [List.getD_eq_getElem _ _ (by simp; omega)]; simp

/-- All bytes equal (40_bst.md R137 (f)). -/
theorem bstFwd_replicate (n : Nat) (b : Byte) : bstFwd (List.replicate n b) = (List.replicate n b, 0) := by
  simp only [bstFwd, rot_replicate]
  refine Prod.ext ?_ ?_
  · refine List.eq_replicate_iff.mpr ⟨by simp, fun c hc => ?_⟩
    obtain ⟨r, hr, rfl⟩ := List.mem_map.mp hc
    exact byteBefore_replicate b (List.mem_range.mp hr)
  · cases n with
    | zero => rfl
    | succ n => simp [List.range_succ_eq_map]

/-! ### Recency-Rank Transform -/

@[simp] theorem initialAlpha_length : initialAlpha.length = 256 := by simp [initialAlpha, Config.alphabetSize]

@[simp] theorem rrtFwdFrom_length (alpha X : List Byte) : (rrtFwdFrom alpha X).length = X.length := by
  induction X generalizing alpha with
  | nil => rfl
  | cons b X ih => simp [rrtFwdFrom, ih]

@[simp] theorem rrtFwd_length (X : List Byte) : (rrtFwd X).length = X.length := rrtFwdFrom_length _ X

/-- Over numbers in range `RrtInv` succeeds, with as many bytes (41_rrt.md R165, R166). -/
theorem rrtInvFrom_ok (alpha : List Byte) {R : List Nat} (h : ∀ k ∈ R, k ≤ 255) :
    ∃ Y, rrtInvFrom alpha R = .ok Y ∧ Y.length = R.length := by
  induction R generalizing alpha with
  | nil => exact ⟨[], rfl, rfl⟩
  | cons k R ih =>
    obtain ⟨Y, hY, hlen⟩ := ih (if k ≠ 0 then moveToFront alpha k else alpha) fun k' hk' =>
      h k' (List.mem_cons_of_mem _ hk')
    refine ⟨alpha.getD k 0 :: Y, ?_, by simp [hlen]⟩
    simp only [rrtInvFrom]
    rw [if_neg (by have := h k List.mem_cons_self; omega), hY]

theorem rrtInvBytes_ok (R : List Byte) : ∃ Y, rrtInvBytes R = .ok Y ∧ Y.length = R.length := by
  obtain ⟨Y, hY, hlen⟩ := rrtInvFrom_ok initialAlpha (R := R.map BitVec.toNat) fun k hk => by
    obtain ⟨b, _, rfl⟩ := List.mem_map.mp hk
    have := b.isLt
    omega
  exact ⟨Y, hY, by simpa using hlen⟩

/-! ### Run Codec -/

@[simp] theorem rcScanFrom_nil (cap : Option Nat) (fuel : Nat) (out : List Byte) :
    rcScanFrom cap fuel [] out = .ok out := by cases fuel <;> rfl

/-- One record of a scan that is all there. -/
theorem rcScanFrom_record {cap : Option Nat} {fuel : Nat} {b : Byte} {bs rest out : List Byte} {i : Instr}
    (h : decodeRecord (b :: bs) = .ok (i, rest)) :
    rcScanFrom cap (fuel + 1) (b :: bs) out =
      if overCapacity cap out.length (recordOutput i).length then .error .capacity
      else rcScanFrom cap fuel rest (out ++ recordOutput i) := by simp [rcScanFrom, h]

/-- One record of a scan that ends too early. -/
theorem rcScanFrom_truncated {cap : Option Nat} {fuel : Nat} {b : Byte} {bs out : List Byte} {r : Reject}
    (h : decodeRecord (b :: bs) = .error r) :
    rcScanFrom cap (fuel + 1) (b :: bs) out = .error .truncatedData := by simp [rcScanFrom, h]

theorem decodeRecord_ok_length {bs rest : List Byte} {i : Instr} (h : decodeRecord bs = .ok (i, rest)) :
    rest.length < bs.length := by
  cases bs with
  | nil => cases h
  | cons b bs =>
    simp only [decodeRecord] at h
    split at h
    · cases bs with
      | nil => cases h
      | cons v bs => cases h; simp
    · split at h
      · cases h
      · cases h; simp

/-- Fuel beyond the stream's length changes nothing. -/
theorem rcScanFrom_fuel (cap : Option Nat) (fuel fuel' : Nat) (B out : List Byte) (h : B.length ≤ fuel)
    (h' : B.length ≤ fuel') : rcScanFrom cap fuel B out = rcScanFrom cap fuel' B out := by
  induction fuel generalizing fuel' B out with
  | zero => obtain rfl := List.length_eq_zero_iff.mp (Nat.le_zero.mp h); simp
  | succ fuel ih =>
    cases B with
    | nil => simp
    | cons b bs =>
      cases fuel' with
      | zero => simp at h'
      | succ fuel' =>
        cases hd : decodeRecord (b :: bs) with
        | error r => rw [rcScanFrom_truncated hd, rcScanFrom_truncated hd]
        | ok p =>
          obtain ⟨i, rest⟩ := p
          have hlt := decodeRecord_ok_length hd
          rw [rcScanFrom_record hd, rcScanFrom_record hd,
            ih fuel' rest _ (by simp only [List.length_cons] at *; omega) (by simp only [List.length_cons] at *; omega)]

end Sys2Proof.Machine
end

