-- ==== Sys2Proof/Laws/Step.lean ====
section
/-! SUPPORT. What a step can do, case by case: the gate of a command, a host action, a turn of the engine; what the shared
operations leave alone; which errors the stage functions give. -/

namespace Sys2Proof.Machine

/-! ### Commands -/

/-- All a command can do when it answers a next state. -/
theorem exec_cases {i : Instr} {s t : State} (hi : i.space = .command) (h : exec i s = .next t) :
    (i = .nop ∧ t = s ∧ s.st ≠ .busy) ∨ (i = .clr ∧ t = s.clearError ∧ s.st ≠ .busy) ∨
    (i ≠ .nop ∧ i ≠ .clr ∧ s.Accepting ∧ t = commandRun i s) ∨
    (i ≠ .nop ∧ i ≠ .clr ∧ s.st = .error ∧ t = s) := by
  by_cases hn : i = .nop
  · subst hn
    rw [exec_nop] at h
    exact .inl ⟨rfl, (unlessBusy_cases h).2, (unlessBusy_cases h).1⟩
  by_cases hc : i = .clr
  · subst hc
    rw [exec_clr] at h
    exact .inr (.inl ⟨rfl, (unlessBusy_cases h).2, (unlessBusy_cases h).1⟩)
  rw [exec_gated s hi hn hc] at h
  rcases whenAccepting_cases h with h | h
  · exact .inr (.inr (.inl ⟨hn, hc, h⟩))
  · exact .inr (.inr (.inr ⟨hn, hc, h⟩))

/-! ### Frames of the shared operations -/

theorem CommandFrame.refl (s : State) : CommandFrame s s := ⟨rfl, rfl, rfl, rfl, rfl⟩

theorem State.deliver_frame (Y : List Byte) (s : State) : CommandFrame s (s.deliver Y) := by
  unfold State.deliver
  split <;> exact ⟨rfl, rfl, rfl, rfl, rfl⟩

theorem State.conclude_frame (r : Except ErrCode (List Byte)) (s : State) : CommandFrame s (s.conclude r) := by
  cases r with
  | ok Y => exact s.deliver_frame Y
  | error e => exact ⟨rfl, rfl, rfl, rfl, rfl⟩

@[simp] theorem State.conclude_idx (r : Except ErrCode (List Byte)) (s : State) : (s.conclude r).idx = s.idx := by
  cases r with
  | ok Y => exact State.deliver_idx Y s
  | error e => rfl

theorem State.withInput_frame {run : List Byte → State → State} (h : ∀ X s, CommandFrame s (run X s)) (s : State) :
    CommandFrame s (s.withInput run) := by
  unfold State.withInput
  split
  · exact ⟨rfl, rfl, rfl, rfl, rfl⟩
  · have := h s.input s.nextDraw
    exact ⟨this.cfg, this.ilen, this.ibuf, this.script, this.reply⟩

theorem State.withInput_idx {run : List Byte → State → State} (h : ∀ X s, (run X s).idx = s.idx) (s : State) :
    (s.withInput run).idx = s.idx := by
  unfold State.withInput
  split
  · rfl
  · exact h s.input s.nextDraw

theorem State.withFramer_frame {run : State → State} (h : ∀ s, CommandFrame s (run s)) (s : State) :
    CommandFrame s (s.withFramer run) := by
  unfold State.withFramer
  split
  · exact h s
  · exact ⟨rfl, rfl, rfl, rfl, rfl⟩

theorem State.withFramer_idx {run : State → State} (h : ∀ s, (run s).idx = s.idx) (s : State) :
    (s.withFramer run).idx = s.idx := by
  unfold State.withFramer
  split
  · exact h s
  · rfl

/-- `deliver` and `raise` look at the working state and the status of no state they start from. -/
theorem State.conclude_congr {s s' : State} (r : Except ErrCode (List Byte)) (hc : s.cfg = s'.cfg)
    (hl : s.ilen = s'.ilen) (hx : s.idx = s'.idx) (hb : s.ibuf = s'.ibuf) (hs : s.script = s'.script)
    (hr : s.reply = s'.reply) (hd : s.draws = s'.draws) : s.conclude r = s'.conclude r := by
  cases s
  cases s'
  simp only at hc hl hx hb hs hr hd
  subst hc hl hx hb hs hr hd
  cases r <;> rfl

/-! ### The errors of the stage functions -/

theorem bstInv_error {T : List Byte} {n : Nat} {e : ErrCode} (h : bstInv T n = .error e) : e = .invalidIndex := by
  unfold bstInv at h
  split at h <;> split at h <;> cases h <;> rfl

theorem rrtInvBytes_ne_error {R : List Byte} {e : ErrCode} : rrtInvBytes R ≠ .error e := by
  obtain ⟨Y, hY, _⟩ := rrtInvBytes_ok R
  rw [hY]
  exact fun h => by cases h

theorem rcScanFrom_error {cap : Option Nat} {fuel : Nat} {B out : List Byte} {e : ErrCode}
    (h : rcScanFrom cap fuel B out = .error e) : e = .truncatedData ∨ e = .capacity := by
  induction fuel generalizing B out with
  | zero => cases B <;> cases h
  | succ f ih =>
    cases B with
    | nil => cases h
    | cons b bs =>
      cases hd : decodeRecord (b :: bs) with
      | error r =>
        rw [rcScanFrom_truncated hd] at h
        cases h
        exact .inl rfl
      | ok p =>
        obtain ⟨i, rest⟩ := p
        rw [rcScanFrom_record hd] at h
        split at h
        · cases h
          exact .inr rfl
        · exact ih h

theorem unrank_error {R : List Byte} {n : Nat} {e : ErrCode} (h : unrank R n = .error e) : e = .invalidIndex := by
  unfold unrank at h
  split at h
  · next h' => exact (rrtInvBytes_ne_error h').elim
  · exact bstInv_error h

theorem ctDec_error {n b : Nat} {C : List Byte} {e : ErrCode} (h : ctDec n b C = .error e) : e ≠ .none := by
  unfold ctDec at h
  split at h
  · split at h
    · cases h
    · split at h
      · next h' =>
        cases h
        rcases rcScanFrom_error h' with h | h <;> rw [h] <;> decide
      · rw [unrank_error h]
        decide
  · cases h
    decide

/-! ### Records and headers at the front of bytes -/

theorem drop_of_getElem? {B : List Byte} {q : Nat} {h : Byte} (hq : B[q]? = some h) : B.drop q = h :: B.drop (q + 1) := by
  obtain ⟨hl, rfl⟩ := List.getElem?_eq_some_iff.mp hq
  exact List.drop_eq_getElem_cons hl

theorem decodeRecord_space {B rest : List Byte} {i : Instr} (h : decodeRecord B = .ok (i, rest)) :
    i.space = .record := by
  cases B with
  | nil => cases h
  | cons b bs =>
    simp only [decodeRecord] at h
    split at h
    · cases bs with
      | nil => cases h
      | cons v bs =>
        cases h
        rfl
    · split at h
      · cases h
      · cases h
        rfl

theorem decodeHeader_cases {src rest : List Byte} {i : Instr} (h : decodeHeader src = .ok (i, rest)) :
    i = .hdrStore ∨ ∃ w, i = .hdrComp w := by
  unfold decodeHeader at h
  split at h
  · simp only [Except.ok.injEq, Prod.mk.injEq] at h
    rw [← h.1]
    split
    · exact .inl rfl
    · exact .inr ⟨_, rfl⟩
  · cases h

/-- The length field of a repeat header (30_encoding.md R108: `header & 0x7F`). -/
theorem headerLen_of_repeat (h : Byte) (h7 : h.getLsbD 7 = true) : (headerLen h).toNat = (h &&& 0x7F#8).toNat := by
  revert h
  decide

/-- The length field of a raw header is the header (30_encoding.md R109). -/
theorem headerLen_of_raw (h : Byte) (h7 : h.getLsbD 7 = false) : (headerLen h).toNat = h.toNat := by
  revert h
  decide

/-! ### Steps -/

/-- All a step can do when it answers a next state: nothing, a host action, a turn of the engine. -/
theorem step_cases {s t : State} (h : step s = .next t) :
    (t = s ∧ s.st ≠ .busy) ∨
    (∃ a rest, s.script = a :: rest ∧ a.blocked s = false ∧ hostAct a { s with script := rest } = .next t) ∨
    (s.st = .busy ∧ s.hostTurn = false ∧ engineTurn s = .next t) := by
  unfold step at h
  split at h
  · next ht =>
    cases hs : s.script with
    | nil => simp [State.hostTurn, hs] at ht
    | cons a rest =>
      refine .inr (.inl ⟨a, rest, rfl, ?_, ?_⟩)
      · simpa [State.hostTurn, hs] using ht
      · rw [← h, hostStep, hs]
  · next ht =>
    split at h
    · next hb => exact .inr (.inr ⟨hb, by simpa using ht, h⟩)
    · next hb =>
      cases h
      exact .inl ⟨rfl, hb⟩

theorem step_of_busy {s : State} (hb : s.st = .busy) (ht : s.hostTurn = false) : step s = engineTurn s := by
  simp [step, ht, hb]

theorem State.HostWaits.hostTurn {s : State} (hw : s.HostWaits) (hb : s.st = .busy) : s.hostTurn = false := by
  unfold State.hostTurn
  cases hs : s.script with
  | nil => rfl
  | cons a rest =>
    have := hw a (by rw [hs]; rfl)
    simp [HostAction.blocked, hb, this]

/-- A turn of the engine where a whole record stands at the cursor. -/
theorem engineTurn_of_record {s : State} {i : Instr} {rest : List Byte} (hk : s.work.kind ≠ .header)
    (hq : s.work.q < s.work.src.length) (hd : decodeRecord (s.work.src.drop s.work.q) = .ok (i, rest)) :
    engineTurn s = exec i s := by
  cases h : s.work.kind with
  | stream => simp only [engineTurn, h, recordTurn, if_pos hq, hd]
  | header => exact absurd h hk
  | container => simp only [engineTurn, h, recordTurn, if_pos hq, hd]

/-- A turn of the engine where the stream ends inside the record at the cursor. -/
theorem engineTurn_of_truncated {s : State} {r : Reject} (hk : s.work.kind ≠ .header)
    (hq : s.work.q < s.work.src.length) (hd : decodeRecord (s.work.src.drop s.work.q) = .error r) :
    engineTurn s = .next (s.raise .truncatedData) := by
  cases h : s.work.kind with
  | stream => simp only [engineTurn, h, recordTurn, if_pos hq, hd]
  | header => exact absurd h hk
  | container => simp only [engineTurn, h, recordTurn, if_pos hq, hd]

/-- One more step of a run. -/
theorem run_succ {M : Host.Core} {s s' : M.State} (k : Nat) (h : M.step s = .next s') :
    M.run (k + 1) s = M.run k s' := by
  simp [Host.Core.run, h]

end Sys2Proof.Machine
end

