-- ==== Sys2Proof/Tests/Slice0.lean ====
section
/-! SUPPORT. The model's own tests: ill-formed terms, words written out from the spec's encodings, one step per
instruction against the vectors of 95_test_vectors.md (V numbers in the comments), and, for every statement of
Obligations.lean that has hypotheses, a state and operands that meet them. -/

namespace Sys2Proof.Tests

open Sys2Proof.Machine

/-! ### Helpers -/

/-- Bytes from their numbers. -/
def bytes (l : List Nat) : List Byte := l.map (BitVec.ofNat 8)

/-- After reset, with an input stream loaded and `IDX` set. -/
def loaded (X : List Byte) (idx : Word32) : State :=
  { State.reset with ibuf := Memory.ofBytes 0 X, ilen := BitVec.ofNat 32 X.length, idx := idx }

/-- What the host can see of a command's result. -/
structure Seen where
  st : Status
  err : ErrCode
  olen : Nat
  idx : Nat
  obuf : List (Nat × Byte)
  deriving DecidableEq, Repr

/-- The result of a step that answers a next state. -/
def result : Host.Outcome State Fault Refusal → Option Seen
  | .next t => some { st := t.st, err := t.err, olen := t.olen.toNat, idx := t.idx.toNat, obuf := t.obuf }
  | .fault _ => none
  | .refused _ => none

/-- A result in `DONE`, with the bytes of `OBUF` and the index. -/
def ends (Y : List Byte) (idx : Nat) : Option Seen :=
  some { st := .done, err := .none, olen := Y.length, idx := idx, obuf := Memory.ofBytes 0 Y }

/-- A result in `ERROR`. -/
def fails (e : ErrCode) (idx : Nat) : Option Seen :=
  some { st := .error, err := e, olen := 0, idx := idx, obuf := [] }

/-- A running command that scans a stream, with the cursor at 0. -/
def scanning (kind : ScanKind) (src : List Byte) : State :=
  { State.reset with st := .busy, work := { kind := kind, src := src, q := 0, out := [], idxw := 0 } }

/-- `State.reset` in the error state with `TruncatedData`. -/
def failed : State := { State.reset with st := .error, err := .truncatedData }

/-- An instance with buffers of 4 bytes, without the framer. -/
def tiny : Config where
  nmax := 4
  hasFramer := false
  hdrBias := 1
  nmax_pos := by decide
  nmax_lt := by decide

/-- An instance with buffers of 4 bytes and the framer. -/
def tinyFramed : Config where
  nmax := 4
  hasFramer := true
  hdrBias := 1
  nmax_pos := by decide
  nmax_lt := by decide

/-- An instance with buffers of 200 bytes. -/
def small : Config where
  nmax := 200
  hasFramer := true
  hdrBias := 0
  nmax_pos := by decide
  nmax_lt := by decide

/-! ### Well-formedness: each check refuses an ill-formed term -/

theorem test_wf_ctEnc_needs_the_framer : Instr.wf false .ctEnc = false := by decide

theorem test_wf_ctDec_needs_the_framer : Instr.wf false .ctDec = false := by decide

theorem test_wf_reservedCmd_carries_a_reserved_word :
    Instr.wf true (.reservedCmd 0x0F#8) = false ∧ Instr.wf true (.reservedCmd 0x07#8) = false ∧
    Instr.wf true (.reservedCmd 0x00#8) = false := by decide

theorem test_wf_raw_has_at_most_127_literals : Instr.wf true (.raw (List.replicate 128 0#8)) = false := by
  decide +kernel

theorem test_wf_hdrComp_is_not_zero : Instr.wf true (.hdrComp 0#32) = false := by decide

/-! ### Decoding: words written out from 30_encoding.md R100, R101, R108, R109, R113 -/

theorem test_decode_nop : decode true .command [0b00000000#8] = .ok (.nop, []) := rfl
theorem test_decode_bstFwd : decode true .command [0b00000001#8] = .ok (.bstFwd, []) := rfl
theorem test_decode_bstInv : decode true .command [0b00000010#8] = .ok (.bstInv, []) := rfl
theorem test_decode_rrtFwd : decode true .command [0b00000011#8] = .ok (.rrtFwd, []) := rfl
theorem test_decode_rrtInv : decode true .command [0b00000100#8] = .ok (.rrtInv, []) := rfl
theorem test_decode_rcEnc : decode true .command [0b00000101#8] = .ok (.rcEnc, []) := rfl
theorem test_decode_rcDec : decode true .command [0b00000110#8] = .ok (.rcDec, []) := rfl
theorem test_decode_ctEnc : decode true .command [0b00000111#8] = .ok (.ctEnc, []) := rfl
theorem test_decode_ctDec : decode true .command [0b00001000#8] = .ok (.ctDec, []) := rfl
theorem test_decode_mov : decode true .command [0b00001001#8] = .ok (.mov, []) := rfl
theorem test_decode_clr : decode true .command [0b00001111#8] = .ok (.clr, []) := rfl
theorem test_decode_reserved_operation_code :
    decode true .command [0b00001010#8] = .ok (.reservedCmd 0x0A#8, []) := rfl
theorem test_decode_reserved_high_nibble :
    decode true .command [0b10000001#8] = .ok (.reservedCmd 0x81#8, []) := rfl
/-- `REP 127, 0x00` is `FF 00` (R119). -/
theorem test_decode_rep : decode true .record [0b11111111#8, 0b00000000#8] = .ok (.rep 127#7 0x00#8, []) := rfl
/-- `RAW 2: 01 01` is `02 01 01` (R119). -/
theorem test_decode_raw :
    decode true .record [0b00000010#8, 0b00000001#8, 0b00000001#8, 0x83#8] = .ok (.raw [0x01#8, 0x01#8], [0x83#8]) :=
  rfl
theorem test_decode_hdrStore : decode true .header [0#8, 0#8, 0#8, 0#8, 0x41#8] = .ok (.hdrStore, [0x41#8]) := rfl
/-- Byte 0 is `h[31:24]`. -/
theorem test_decode_hdrComp :
    decode true .header [0b00000001#8, 0b00000010#8, 0b00000011#8, 0b00000100#8] = .ok (.hdrComp 0x01020304#32, []) :=
  rfl
/-- Each way of not being an instruction is rejected by its name. -/
theorem test_decode_rejects :
    decode true .command [] = .error .noBytes ∧ decode true .record [] = .error .noBytes ∧
    decode true .record [0x80#8] = .error .missingValueByte ∧
    decode true .record [0x02#8, 0x05#8] = .error .missingLiterals ∧
    decode true .header [0#8, 0#8, 0#8] = .error .shortHeader := ⟨rfl, rfl, rfl, rfl, rfl⟩
/-- The table's words: the first byte of a record or header is bits 7..0. -/
theorem test_decode_table_words :
    decodeTableWord 8 0x05 = some .rcEnc ∧ decodeTableWord 16 0x5583 = some (.rep 3#7 0x55#8) ∧
    decodeTableWord 8 0x80 = some (.rep 0#7 0x00#8) ∧ decodeTableWord 16 0x0001 = some (.raw [0x00#8]) ∧
    decodeTableWord 32 0 = some .hdrStore ∧ decodeTableWord 32 0x04000000 = some (.hdrComp 4#32) := by
  decide +kernel

/-! ### One step per instruction -/

/-- V102, and `NOP` in `ERROR` (V97). -/
theorem test_nop : exec .nop failed = .next failed := rfl

/-- V22: `"banana"`. -/
theorem test_bstFwd_banana :
    result (exec .bstFwd (loaded (bytes [0x62, 0x61, 0x6E, 0x61, 0x6E, 0x61]) 9)) =
      ends (bytes [0x6E, 0x6E, 0x62, 0x61, 0x61, 0x61]) 3 := by decide +kernel

/-- V27: bytes are compared as unsigned numbers. -/
theorem test_bstFwd_unsigned :
    result (exec .bstFwd (loaded (bytes [0x80, 0x7F, 0x80, 0x00]) 0)) =
      ends (bytes [0x80, 0x80, 0x7F, 0x00]) 3 := by decide +kernel

/-- V24: an index that is wrong but in range gives another rotation. -/
theorem test_bstInv_other_rotation :
    result (exec .bstInv (loaded (bytes [0x6E, 0x6E, 0x62, 0x61, 0x61, 0x61]) 4)) =
      ends (bytes [0x6E, 0x61, 0x62, 0x61, 0x6E, 0x61]) 4 := by decide +kernel

/-- V25: index `n`. -/
theorem test_bstInv_index_n :
    result (exec .bstInv (loaded (bytes [0x6E, 0x6E, 0x62, 0x61, 0x61, 0x61]) 6)) = fails .invalidIndex 6 := by
  decide +kernel

/-- V45. -/
theorem test_rrtFwd :
    result (exec .rrtFwd (loaded (bytes [0x6E, 0x6E, 0x62, 0x61, 0x61, 0x61]) 3)) =
      ends (bytes [0x6E, 0x00, 0x63, 0x63, 0x00, 0x00]) 3 := by decide +kernel

/-- V39: rank 255 takes the last entry. -/
theorem test_rrtInv_last_entry :
    result (exec .rrtInv (loaded (bytes [0xFF, 0xFF]) 0)) = ends (bytes [0xFF, 0xFE]) 0 := by decide +kernel

/-- V39: rank 0 makes no move. -/
theorem test_rrtInv_rank_zero :
    result (exec .rrtInv (loaded (bytes [0x02, 0x00, 0x01]) 0)) = ends (bytes [0x02, 0x02, 0x00]) 0 := by
  decide +kernel

/-- V76. -/
theorem test_rcEnc :
    result (exec .rcEnc (loaded (bytes [1, 1, 2, 2, 2, 3]) 0)) = ends (bytes [2, 1, 1, 0x83, 2, 1, 3]) 0 := by
  decide +kernel

/-- V80: a run of 129. -/
theorem test_rcEnc_cap :
    result (exec .rcEnc (loaded (List.replicate 129 0x07#8) 0)) = ends (bytes [0xFF, 7, 2, 7, 7]) 0 := by
  decide +kernel

/-- V56: literals with the top bit set are no headers. -/
theorem test_rcDec :
    result (exec .rcDec (loaded (bytes [2, 0x83, 0x84, 0x83, 7]) 5)) = ends (bytes [0x83, 0x84, 7, 7, 7]) 5 := by
  decide +kernel

/-- V66 with `NMAX = 200`: the first record that fails decides. -/
theorem test_rcDec_first_failure :
    result (exec .rcDec { loaded (bytes [0xFF, 1, 0xFF, 2, 0x83]) 0 with cfg := small }) = fails .capacity 0 := by
  decide +kernel

/-- V2: ten bytes are stored. -/
theorem test_ctEnc_store :
    result (exec .ctEnc (loaded (List.replicate 10 0x41#8) 7)) =
      ends (bytes [0, 0, 0, 0] ++ List.replicate 10 0x41#8) 7 := by decide +kernel

/-- V92: a store-mode container that does not fit. -/
theorem test_ctEnc_capacity :
    result (exec .ctEnc { loaded (bytes [0x41]) 0 with cfg := tinyFramed }) = fails .capacity 0 := by decide +kernel

/-- V64 with `HDR_BIAS = 1`. -/
theorem test_ctDec_compressed :
    result (exec .ctDec (loaded (bytes [0, 0, 0, 4, 6, 0x6E, 0, 0x63, 0x63, 0, 0]) 7)) =
      ends (bytes [0x62, 0x61, 0x6E, 0x61, 0x6E, 0x61]) 7 := by decide +kernel

/-- V67: a truncated payload hides a bad index. -/
theorem test_ctDec_order_of_checks :
    result (exec .ctDec (loaded (bytes [0, 0, 0, 9, 6, 0x6E, 0, 0x63, 0x83]) 0)) = fails .truncatedData 0 := by
  decide +kernel

/-- A state with the output stream of V99. -/
def withOutput : State :=
  { State.reset with
    st := .done, olen := 6, idx := 3, obuf := Memory.ofBytes 0 (bytes [0x6E, 0x6E, 0x62, 0x61, 0x61, 0x61]) }

/-- The input buffer and `ILEN` after a step. -/
def inputAfter : Host.Outcome State Fault Refusal → List (Nat × Byte) × Nat
  | .next t => (t.ibuf, t.ilen.toNat)
  | .fault _ => ([], 0)
  | .refused _ => ([], 0)

/-- V99: the stream is in both buffers, and the index is as before. -/
theorem test_mov :
    inputAfter (exec .mov withOutput) = (Memory.ofBytes 0 (bytes [0x6E, 0x6E, 0x62, 0x61, 0x61, 0x61]), 6) ∧
    result (exec .mov withOutput) = ends (bytes [0x6E, 0x6E, 0x62, 0x61, 0x61, 0x61]) 3 := by decide +kernel

/-- V98. -/
theorem test_clr : exec .clr failed = .next State.reset := rfl

/-- V95: the high nibble is not zero. -/
theorem test_reserved : result (exec (.reservedCmd 0x81#8) withOutput) = fails .illegalCommand 3 := by
  decide +kernel

/-- V97: a reserved word is ignored in `ERROR`. -/
theorem test_reserved_ignored : exec (.reservedCmd 0x0A#8) failed = .next failed := rfl

/-- R190: `83 63` appends `63 63 63` and is two bytes long. -/
theorem test_rep :
    exec (.rep 3#7 0x63#8) (scanning .stream (bytes [0x83, 0x63])) =
      .next { scanning .stream (bytes [0x83, 0x63]) with
        work := { kind := .stream, src := bytes [0x83, 0x63], q := 2, out := bytes [0x63, 0x63, 0x63], idxw := 0 } } :=
  rfl

/-- R191: `03 01 02 03` appends `01 02 03`. -/
theorem test_raw :
    exec (.raw (bytes [1, 2, 3])) (scanning .stream (bytes [3, 1, 2, 3])) =
      .next { scanning .stream (bytes [3, 1, 2, 3]) with
        work := { kind := .stream, src := bytes [3, 1, 2, 3], q := 4, out := bytes [1, 2, 3], idxw := 0 } } := rfl

/-- V62. -/
theorem test_hdrStore :
    result (exec .hdrStore (scanning .header (bytes [0, 0, 0, 0, 1, 2, 3]))) = ends (bytes [1, 2, 3]) 0 := by
  decide +kernel

/-- R222: header 4 with `HDR_BIAS = 1` is index 3; the payload is next. -/
theorem test_hdrComp :
    exec (.hdrComp 4#32) (scanning .header (bytes [0, 0, 0, 4, 6, 0x6E])) =
      .next { scanning .header (bytes [0, 0, 0, 4, 6, 0x6E]) with
        work := { kind := .container, src := bytes [6, 0x6E], q := 0, out := [], idxw := 3 } } := rfl

/-! ### Vectors of the stage functions -/

/-- V26: equal rotations stand by rising offset. -/
theorem test_rot_tie_break : rot (bytes [0x41, 0x42, 0x41, 0x42]) = [0, 2, 1, 3] := by decide +kernel

/-- V24: the mapping vector. -/
theorem test_lfMap : lfMap (bytes [0x6E, 0x6E, 0x62, 0x61, 0x61, 0x61]) = [4, 5, 3, 0, 1, 2] := by decide +kernel

/-- V69: the least input that is compressed. -/
theorem test_ctEnc_threshold :
    ctEnc 1 (List.replicate 512 0x41#8) =
      bytes [0, 0, 0, 1, 1, 0x41, 0xFF, 0, 0xFF, 0, 0xFF, 0, 0xFF, 0, 0x83, 0] := by
  rw [ctEnc, pipelineEnc, bstFwd_replicate]
  decide +kernel

/-! ### The host -/

/-- Reset leaves memories in canonical form. -/
theorem test_reset_memory_wf : Memory.wf State.reset.ibuf = true ∧ Memory.wf State.reset.obuf = true := by decide

/-- P3: after an error the later commands are ignored. -/
theorem test_script_after_error :
    (match Host.Core.run Sys2Proof.core 5 { State.reset with
        script := scriptLoad (bytes [0x83]) ++ scriptCommands [.rcDec, .mov, .rrtInv] } with
      | .next t => some (t.st, t.err, t.ilen, t.olen)
      | .fault _ => none
      | .refused _ => none) = some (.error, .truncatedData, 1, 0) := by decide +kernel

/-- A table word placed by `withFetchWord` is run by the next step. -/
theorem test_fetch_word :
    step (State.reset.withFetchWord 8 0x0A) = exec (.reservedCmd 0x0A#8) State.reset ∧
    step (State.reset.withFetchWord 16 0x5583) =
      exec (.rep 3#7 0x55#8) (scanning .stream (bytes [0x83, 0x55])) := ⟨rfl, rfl⟩

/-! ### Witnesses: for each statement with hypotheses, a state and operands that meet them, clause by clause -/

/-- `ILEN = NMAX`. -/
def fullInput : State := { State.reset with ilen := 1024 }

/-- `ILEN = NMAX + 1` (V101). -/
def longInput : State := { State.reset with ilen := 1025 }

/-- A state with one action of the host to come. -/
def about (a : HostAction) (s : State) : State := { s with script := [a] }

theorem witness_DecodeOfEncodeIsTheInstruction :
    Instr.wf true (.raw (List.replicate 127 0xFF#8)) = true ∧ Instr.wf true (.rep 127#7 0xFF#8) = true ∧
    Instr.wf true .ctDec = true ∧ Instr.wf false (.reservedCmd 0x07#8) = true ∧
    Instr.wf true (.reservedCmd 0x10#8) = true ∧ Instr.wf true (.hdrComp 0xFFFFFFFF#32) = true := by decide +kernel

theorem witness_EncodeOfDecodeIsTheBytes :
    decode true .record [0x80#8, 0x55#8, 0x01#8] = .ok (.rep 0#7 0x55#8, [0x01#8]) ∧
    decode false .command [0x08#8] = .ok (.reservedCmd 0x08#8, []) := ⟨rfl, rfl⟩

theorem witness_ReservedWordsRaiseIllegalCommand :
    decodeCommand State.reset.cfg.hasFramer 0x0A#8 = .reservedCmd 0x0A#8 ∧
    decodeCommand State.reset.cfg.hasFramer 0x0E#8 = .reservedCmd 0x0E#8 ∧
    decodeCommand State.reset.cfg.hasFramer 0x10#8 = .reservedCmd 0x10#8 ∧
    decodeCommand (State.resetOf tiny).cfg.hasFramer 0x07#8 = .reservedCmd 0x07#8 ∧
    State.reset.Accepting ∧ (State.resetOf tiny).Accepting ∧ withOutput.Accepting := by decide

theorem witness_StepRunsTheHostsAction :
    (about (.command 0x0F#8) State.reset).st ≠ .busy ∧
    (about (.command 0x0F#8) State.reset).script = .command 0x0F#8 :: [] ∧
    decode (about (.command 0x0F#8) State.reset).cfg.hasFramer .command [0x0F#8] = .ok (.clr, []) ∧
    State.reset.script = [] := ⟨by decide, rfl, rfl, rfl⟩

theorem witness_StepRunsTheStreamsInstruction :
    (scanning .stream (bytes [0x83, 0x63])).st = .busy ∧
    (scanning .stream (bytes [0x83, 0x63])).hostTurn = false ∧
    (scanning .stream (bytes [0x83, 0x63])).work.kind ≠ .header ∧
    decode true .record ((scanning .stream (bytes [0x83, 0x63])).work.src.drop 0) = .ok (.rep 3#7 0x63#8, []) ∧
    (scanning .header (bytes [0, 0, 0, 0])).work.kind = .header ∧
    decode true .header (scanning .header (bytes [0, 0, 0, 0])).work.src = .ok (.hdrStore, []) :=
  ⟨rfl, rfl, by decide, rfl, rfl, rfl⟩

theorem witness_HostBufferAccesses :
    State.reset.st ≠ .busy ∧ 1023 < State.reset.cfg.nmax ∧ State.reset.cfg.nmax ≤ 1024 := by decide

theorem witness_HostRegisterAccesses :
    State.reset.st = .idle ∧ withOutput.st = .done ∧ failed.st = .error ∧ State.reset.err = .none ∧
    failed.err = .truncatedData := by decide

theorem witness_AccessWhileBusyIsRefused :
    (scanning .stream []).st = .busy ∧ HostAction.command 0x00#8 ≠ .readReg .st ∧
    HostAction.command 0x00#8 ≠ .reset ∧ Instr.nop.space = .command := by decide

theorem witness_StatusMachineTable :
    (failed.st = .error ∧ Instr.mov ≠ .nop ∧ Instr.mov ≠ .clr) ∧ failed.st ≠ .busy ∧ State.reset.Accepting ∧
    isTransform .ctDec = true ∧ (Instr.reservedCmd 0x0A#8).space = .command ∧ (scanning .stream []).st = .busy := by
  decide

theorem witness_OnlyClearAndResetLeaveError :
    failed.st = .error ∧ step (about (.command 0x0F#8) failed) = .next State.reset ∧
    step (about .reset failed) = .next State.reset ∧ step (about (.command 0x09#8) failed) = .next failed :=
  ⟨rfl, rfl, rfl, rfl⟩

theorem witness_EveryErrorEntersTheSameWay :
    exec (.reservedCmd 0x0A#8) withOutput = .next (withOutput.raise .illegalCommand) ∧ withOutput.Accepting ∧
    (withOutput.raise .illegalCommand).st = .error := ⟨rfl, by decide, rfl⟩

theorem witness_OnlyMovWritesTheInput :
    exec .clr failed = .next State.reset ∧ exec (.reservedCmd 0x0A#8) withOutput = .next (withOutput.raise .illegalCommand) :=
  ⟨rfl, rfl⟩

theorem witness_BusyIsNeverObserved :
    failed.st ≠ .busy ∧ step (about (.command 0x0F#8) failed) = .next State.reset := ⟨by decide, rfl⟩

/-- The two states differ in `ST`, `OLEN` and `OBUF`. -/
theorem witness_ResultDependsOnTheInputAlone :
    (loaded (bytes [0x41, 0x42]) 1).InputIs (bytes [0x41, 0x42]) ∧
    State.InputIs { loaded (bytes [0x41, 0x42]) 1 with st := .done, olen := 1, obuf := [(0, 0x07#8)] }
      (bytes [0x41, 0x42]) ∧
    isTransform .bstInv = true ∧ (loaded (bytes [0x41, 0x42]) 1).Accepting := by
  unfold State.InputIs
  decide

/-- A state inside `RC.DEC`, with a record to come. -/
theorem scanning_inv : (scanning .stream (bytes [0x83, 0x63])).Inv where
  ibuf_wf := rfl
  obuf_wf := rfl
  ibuf_within := rfl
  olen_le := by decide
  obuf_specified := by
    intro i
    simp [scanning, State.reset, State.resetOf]
  err_iff := by decide
  error_olen := by decide
  work_discarded := by decide
  work_src := by decide
  work_cursor := by decide
  work_out := by decide

theorem witness_StepKeepsTheInvariant :
    (scanning .stream (bytes [0x83, 0x63])).Inv ∧
    ∃ t, step (scanning .stream (bytes [0x83, 0x63])) = .next t ∧ t.work.q = 2 := ⟨scanning_inv, _, rfl, rfl⟩

theorem witness_NopChangesNothing_ClrClearsStatusAndErrorOnly :
    State.reset.st ≠ .busy ∧ withOutput.st ≠ .busy ∧ failed.st ≠ .busy ∧ failed.st = .error ∧
    (Instr.reservedCmd 0xFF#8).space = .command ∧ Instr.reservedCmd 0xFF#8 ≠ .clr := by decide

theorem witness_MovCopiesOutputToInput : failed.st = .error ∧ withOutput.Accepting := by decide

/-- For `BstFwdCommand`, `RrtFwdCommand`, `RrtInvCommand`: `ILEN` at and above `NMAX`. -/
theorem witness_transform_commands :
    fullInput.Accepting ∧ fullInput.ilen.toNat ≤ fullInput.cfg.nmax ∧ longInput.Accepting ∧
    longInput.cfg.nmax < longInput.ilen.toNat := by decide

theorem witness_BstInvCommand :
    (let s := loaded [] 1; s.Accepting ∧ s.ilen.toNat = 0 ∧ s.idx.toNat ≠ 0) ∧
    (let s := loaded (bytes [0x41, 0x42]) 2; s.ilen.toNat ≠ 0 ∧ s.ilen.toNat ≤ s.idx.toNat ∧ s.ilen.toNat ≤ s.cfg.nmax) ∧
    (let s := loaded [] 0; s.ilen.toNat = 0 ∧ s.idx.toNat = 0) ∧
    (let s := loaded (bytes [0x41, 0x42]) 1; s.idx.toNat < s.ilen.toNat ∧ s.ilen.toNat ≤ s.cfg.nmax) := by decide

/-- Four distinct bytes in buffers of four do not fit when encoded; one byte in 1024 does. -/
theorem witness_RcEncCommand :
    (let s : State := { loaded (bytes [1, 2, 3, 4]) 0 with cfg := tiny };
      s.Accepting ∧ s.ilen.toNat ≤ s.cfg.nmax ∧ s.cfg.nmax < (rcEnc (bytes [1, 2, 3, 4])).length) ∧
    (let s := loaded (bytes [1]) 0;
      s.Accepting ∧ s.ilen.toNat ≤ s.cfg.nmax ∧ (rcEnc (bytes [1])).length ≤ s.cfg.nmax) := by decide +kernel

theorem witness_RcDecCommand :
    fullInput.Accepting ∧ fullInput.ilen.toNat ≤ fullInput.cfg.nmax ∧ longInput.cfg.nmax < longInput.ilen.toNat ∧
    (loaded (bytes [0x81, 0x55]) 0).InputIs (bytes [0x81, 0x55]) ∧
    rcDecScan 1024 (bytes [0x81, 0x55]) = .ok (bytes [0x55]) := by
  refine ⟨by decide, by decide, by decide, ?_, rfl⟩
  unfold State.InputIs
  decide

theorem witness_CtEncCommand :
    (State.resetOf tiny).Accepting ∧ (State.resetOf tiny).cfg.hasFramer = false ∧
    State.reset.cfg.hasFramer = true ∧ fullInput.ilen.toNat ≤ fullInput.cfg.nmax ∧
    longInput.cfg.nmax < longInput.ilen.toNat ∧ (ctEnc 1 []).length ≤ (State.resetOf tinyFramed).cfg.nmax ∧
    (State.resetOf tinyFramed).cfg.nmax < (ctEnc 1 (bytes [0x41])).length := by decide +kernel

theorem witness_CtDecCommand :
    (State.resetOf tiny).Accepting ∧ (State.resetOf tiny).cfg.hasFramer = false ∧
    (loaded (bytes [0, 0, 0, 1, 1, 0x41]) 0).InputIs (bytes [0, 0, 0, 1, 1, 0x41]) ∧
    ctDec 1024 1 (bytes [0, 0, 0, 1, 1, 0x41]) = .ok (bytes [0x41]) := by
  refine ⟨by decide, rfl, ?_, rfl⟩
  unfold State.InputIs
  decide

/-- A running scan in buffers of four bytes, with some output already made. -/
def scanningTiny (src out : List Byte) : State :=
  { State.resetOf tiny with st := .busy, work := { kind := .stream, src := src, q := 0, out := out, idxw := 0 } }

theorem witness_RepeatRecordAtTheCursor :
    (let s := scanningTiny (bytes [0x83]) [];
      s.st = .busy ∧ s.work.kind ≠ .header ∧ s.hostTurn = false ∧ s.work.src[0]? = some 0x83#8 ∧
        (0x83#8).getLsbD 7 = true ∧ s.work.src.length ≤ s.work.q + 1) ∧
    (let s := scanningTiny (bytes [0x83, 0x63]) (bytes [1]);
      s.work.src[s.work.q + 1]? = some 0x63#8 ∧ s.work.out.length + (0x83#8 &&& 0x7F#8).toNat ≤ s.cfg.nmax) ∧
    (let s := scanningTiny (bytes [0x83, 0x63]) (bytes [1, 2]);
      s.work.src[s.work.q + 1]? = some 0x63#8 ∧ s.cfg.nmax < s.work.out.length + (0x83#8 &&& 0x7F#8).toNat) := by
  decide

theorem witness_RawRecordAtTheCursor :
    (let s := scanningTiny (bytes [2, 7]) [];
      s.st = .busy ∧ s.work.kind ≠ .header ∧ s.hostTurn = false ∧ s.work.src[0]? = some 0x02#8 ∧
        (0x02#8).getLsbD 7 = false ∧ s.work.src.length < s.work.q + 1 + (0x02#8).toNat) ∧
    (let s := scanningTiny (bytes [2, 7, 8]) (bytes [1, 2]);
      s.work.q + 1 + (0x02#8).toNat ≤ s.work.src.length ∧ s.work.out.length + (0x02#8).toNat ≤ s.cfg.nmax) ∧
    (let s := scanningTiny (bytes [2, 7, 8]) (bytes [1, 2, 3]);
      s.work.q + 1 + (0x02#8).toNat ≤ s.work.src.length ∧ s.cfg.nmax < s.work.out.length + (0x02#8).toNat) := by
  decide

theorem witness_RecordsAppendTheirOutput :
    (Instr.rep 3#7 0x63#8).space = .record ∧ (Instr.raw (bytes [7, 8, 9])).space = .record ∧
    (scanningTiny [] (bytes [1])).work.out.length + (recordOutput (.rep 3#7 0x63#8)).length ≤ 4 ∧
    (scanningTiny [] (bytes [1])).work.out.length + (recordOutput (.raw (bytes [7, 8, 9]))).length ≤ 4 := by decide

theorem witness_StoreHeaderDeliversThePayload :
    (scanning .header (bytes [0, 0, 0, 0, 1, 2])).work.src = [0#8, 0#8, 0#8, 0#8] ++ bytes [1, 2] ∧
    (bytes [1, 2]).length ≤ (scanning .header (bytes [0, 0, 0, 0, 1, 2])).cfg.nmax := by decide

theorem witness_CompressedHeaderStartsThePayloadScan :
    (4#32 : Word32) ≠ 0 ∧
    (scanning .header (bytes [0, 0, 0, 4, 6])).work.src = be32 4#32 ++ bytes [6] := by decide

theorem witness_RcDecIsItsRecordsOneByOne_CtDecIsItsHeaderAndRecords :
    (about (.command 0x09#8) fullInput).Accepting ∧ (about (.command 0x09#8) fullInput).cfg.hasFramer = true ∧
    (about (.command 0x09#8) fullInput).ilen.toNat ≤ (about (.command 0x09#8) fullInput).cfg.nmax ∧
    (about (.command 0x09#8) fullInput).HostWaits := by
  refine ⟨by decide, rfl, by decide, ?_⟩
  intro a h
  cases h
  rfl

theorem witness_BstForwardSortsRotations :
    [0, 1].Perm (List.range (bytes [0x41, 0x42]).length) ∧
    [0, 1].Pairwise (SortsBefore (bytes [0x41, 0x42])) := by
  refine ⟨by decide, List.pairwise_pair.mpr (.inl ⟨0, by decide, by decide, ?_⟩)⟩
  intro j hj
  cases hj

/-- An arrangement of equal rotations other than `ROT`, and two equal rotations. -/
theorem witness_BstForwardConsequences :
    ([1, 0].Perm (List.range (bytes [7, 7]).length) ∧
      [1, 0].Pairwise (fun a b => ¬ RotationLess (bytes [7, 7]) b a)) ∧
    ((rot (bytes [0x41, 0x42, 0x41, 0x42]))[1]? = some 2 ∧ RotationEq (bytes [0x41, 0x42, 0x41, 0x42]) 2 0) := by
  refine ⟨⟨by decide, List.pairwise_pair.mpr ?_⟩, by decide +kernel, ?_⟩
  · rintro ⟨i, hi, h, -⟩
    revert i
    decide
  · unfold RotationEq
    decide

theorem witness_BstInverseChecksTheIndexOnly :
    (([] : List Byte) = [] ∧ 1 ≠ 0) ∧ (bytes [5, 6] ≠ [] ∧ (bytes [5, 6]).length ≤ 2) ∧ 1 < (bytes [5, 6]).length := by
  decide

theorem witness_LfMapCountsSmallerAndEarlier : (bytes [5, 6])[1]? = some 0x06#8 := rfl

theorem witness_BstRoundTrip :
    (loaded (bytes [0x41, 0x42]) 0).Accepting ∧ (loaded (bytes [0x41, 0x42]) 0).InputIs (bytes [0x41, 0x42]) ∧
    (bytes [0x41, 0x42]).length ≤ (loaded (bytes [0x41, 0x42]) 0).cfg.nmax := by
  unfold State.InputIs
  decide

theorem witness_MoveToFrontRearranges :
    initialAlpha[255]? = some 0xFF#8 ∧ (∀ k ∈ [255, 0, 3], k < 256) ∧ 1 ≤ 255 ∧ 3 < 4 := by decide +kernel

/-- The last `1` of `1 2 3 1` occurred before, at 0; its first did not. -/
theorem witness_RankClosedForm :
    (bytes [1, 2, 3, 1])[3]? = some 0x01#8 ∧ (bytes [1, 2, 3, 1])[0]? = some 0x01#8 ∧
    (∀ q, 0 < q → q < 3 → (bytes [1, 2, 3, 1])[q]? ≠ some 0x01#8) ∧
    (bytes [1, 2, 3, 1])[2]? = some 0x03#8 ∧ 0x03#8 ∉ (bytes [1, 2, 3, 1]).take 2 := by
  refine ⟨by decide, by decide, fun q h1 h2 => ?_, by decide, by decide⟩
  have : q = 1 ∨ q = 2 := by omega
  rcases this with rfl | rfl <;> decide

theorem witness_RrtRoundTrips : rrtInvBytes (bytes [2, 0, 1]) = .ok (bytes [2, 2, 0]) := by rfl

theorem witness_RunIsTheLongestUpToTheCap :
    1 < runLen (0x05#8 :: bytes [5, 6]) ∧ runLen (0x05#8 :: bytes [5, 6]) < 127 := by decide +kernel

theorem witness_LiteralSegmentStopsWhereItMust :
    bytes [1, 2, 2, 2] ≠ [] ∧ runLen (bytes [1, 2, 2, 2]) ≤ 2 ∧ 0 < litLen (bytes [1, 2, 2, 2]) := by decide +kernel

theorem witness_EncoderEmitsOnlyTheseRecords :
    rcRecords (bytes [1, 2, 2, 2]) = [] ++ .raw (bytes [1]) :: .rep 3#7 0x02#8 :: [] ∧ (bytes [1]).length < 127 ∧
    rcRecords (List.replicate 254 0x09#8) = [] ++ .rep 127#7 0x09#8 :: .rep 127#7 0x09#8 :: [] := by decide +kernel

theorem areRecords_pair : AreRecords [.rep 127#7 0x01#8, .rep 127#7 0x02#8] := by
  intro i hi
  simp only [List.mem_cons, List.not_mem_nil, or_false] at hi
  rcases hi with rfl | rfl <;> exact ⟨rfl, rfl⟩

/-- V66 with `NMAX = 253` and with `NMAX = 254`. -/
theorem witness_FirstFailingRecordDecides :
    AreRecords [.rep 127#7 0x01#8, .rep 127#7 0x02#8] ∧
    253 < ([.rep 127#7 0x01#8, .rep 127#7 0x02#8].flatMap recordOutput).length ∧
    ([.rep 127#7 0x01#8, .rep 127#7 0x02#8].flatMap recordOutput).length ≤ 254 ∧ EndsMidRecord 0x83#8 [] :=
  ⟨areRecords_pair, by decide +kernel, by decide +kernel, .inl ⟨by decide, rfl⟩⟩

theorem witness_RcRoundTrip :
    (loaded (bytes [5, 5, 5]) 0).Accepting ∧ (loaded (bytes [5, 5, 5]) 0).InputIs (bytes [5, 5, 5]) ∧
    (bytes [5, 5, 5]).length ≤ 1024 ∧ (rcEnc (bytes [5, 5, 5])).length ≤ 1024 := by
  unfold State.InputIs
  decide +kernel

theorem witness_DecoderOutputSize : rcDec (bytes [0x81, 0x55]) = .ok (bytes [0x55]) ∧ 254 / 127 + 1 = 3 :=
  ⟨rfl, rfl⟩

/-- V69 (512 equal bytes), with `HDR_BIAS = 0`. -/
theorem witness_ContainerRoundTrip :
    (List.replicate 512 0x41#8).length ≤ 1024 ∧ 1024 < 2 ^ 32 ∧ 512 ≤ (List.replicate 512 0x41#8).length ∧
    (rcEnc (rrtFwd (bstFwd (List.replicate 512 0x41#8)).1)).length + 4 < (List.replicate 512 0x41#8).length ∧
    (bstFwd (List.replicate 512 0x41#8)).2 = 0 := by
  rw [bstFwd_replicate]
  decide +kernel

theorem witness_StoreModeReturnsThePayload :
    (loaded (bytes [0, 0, 0, 0, 7]) 0).Accepting ∧ (loaded (bytes [0, 0, 0, 0, 7]) 0).cfg.hasFramer = true ∧
    (loaded (bytes [0, 0, 0, 0, 7]) 0).InputIs ([0#8, 0#8, 0#8, 0#8] ++ bytes [7]) ∧
    (loaded (bytes [0, 0, 0, 0, 7]) 0).ilen.toNat ≤ (loaded (bytes [0, 0, 0, 0, 7]) 0).cfg.nmax ∧
    (let s : State := { loaded (bytes [0, 0, 0, 0, 7]) 0 with cfg := tinyFramed };
      s.Accepting ∧ s.cfg.hasFramer = true ∧ s.InputIs ([0#8, 0#8, 0#8, 0#8] ++ bytes [7]) ∧
      s.cfg.nmax < s.ilen.toNat) := by
  unfold State.InputIs
  decide

/-- V67, V68: an error of the RC step; decoded length 0 with index 0 and 1; length 1 with index 0 and 1. -/
theorem witness_ContainerErrorsInOrder :
    (bytes [0, 0, 0]).length < 4 ∧ (2#32 : Word32) ≠ 0 ∧
    rcDecScan 1024 (bytes [0x83]) = .error .truncatedData ∧ rcDecScan 1024 [] = .ok [] ∧
    rcDecScan 1024 (bytes [1, 0x41]) = .ok (bytes [0x41]) ∧
    (2#32 : Word32).toNat - 1 ≠ 0 ∧ (1#32 : Word32).toNat - 1 = 0 ∧
    (bytes [0x41]).length ≤ (2#32 : Word32).toNat - 1 ∧ (1#32 : Word32).toNat - 1 < (bytes [0x41]).length :=
  ⟨by decide, by decide, rfl, rfl, rfl, by decide, by decide, by decide, by decide⟩

end Sys2Proof.Tests
end

/-! SUPPORT. The statements on the state: the registers, the status machine, what a command leaves alone, what a
transform's result depends on, the invariant. Each rests on one account of what a command and a host action can do. -/

namespace Sys2Proof.Machine

/-! ### A transform command in normal form -/

/-- The error a transform command is turned away with before it reads its input: its code is reserved without the
framer (00_scope.md R12), or its input is longer than the buffers (60_exceptions.md R263). -/
def turnedAway (i : Instr) (cfg : Config) (ilen : Word32) : Option ErrCode :=
  if (i = .ctEnc ∨ i = .ctDec) ∧ cfg.hasFramer = false then some .illegalCommand
  else if cfg.nmax < ilen.toNat then some .capacity
  else none

/-- What the stage function of a transform command answers on an input stream; `idx` is the register. An instruction
that is no transform has no stage function, and no lemma is about its value here. -/
def stageResult (cfg : Config) (idx : Word32) (X : List Byte) : Instr → Except ErrCode (List Byte)
  | .bstFwd => .ok (bstFwd X).1
  | .bstInv => bstInv X idx.toNat
  | .rrtFwd => .ok (rrtFwd X)
  | .rrtInv => rrtInvBytes X
  | .rcEnc => .ok (rcEnc X)
  | .rcDec => rcDecScan cfg.nmax X
  | .ctEnc => .ok (ctEnc cfg.hdrBias.val X)
  | .ctDec => ctDec cfg.nmax cfg.hdrBias.val X
  | _ => .ok []

/-- `IDX` after a transform command has run (10_state.md R33). -/
def resultIdx (idx : Word32) (X : List Byte) : Instr → Word32
  | .bstFwd => BitVec.ofNat 32 (bstFwd X).2
  | _ => idx

/-- The state a transform command leaves when it was not turned away. -/
def State.finishTransform (s : State) (i : Instr) : State :=
  { s.nextDraw.conclude (stageResult s.cfg s.idx s.input i) with idx := resultIdx s.idx s.input i }

theorem resultIdx_of_ne {i : Instr} (idx : Word32) (X : List Byte) (h : i ≠ .bstFwd) : resultIdx idx X i = idx := by
  cases i with
  | bstFwd => exact absurd rfl h
  | _ => rfl

theorem State.finishTransform_of_ne {i : Instr} (s : State) (h : i ≠ .bstFwd) :
    s.finishTransform i = s.nextDraw.conclude (stageResult s.cfg s.idx s.input i) := by
  have hidx := s.nextDraw.conclude_idx (stageResult s.cfg s.idx s.input i)
  rw [State.finishTransform, resultIdx_of_ne s.idx s.input h]
  exact congrArg (fun x => { s.nextDraw.conclude (stageResult s.cfg s.idx s.input i) with idx := x }) hidx.symm

theorem turnedAway_ne_none {i : Instr} {cfg : Config} {ilen : Word32} {e : ErrCode}
    (h : turnedAway i cfg ilen = some e) : e ≠ .none := by
  unfold turnedAway at h
  split at h
  · cases h; decide
  · split at h
    · cases h; decide
    · cases h

/-- The gate of the buffers' size, for a command that exists without the framer. -/
theorem State.withInput_eq_elim (s : State) {i : Instr} {run : List Byte → State → State}
    (hi : ¬ ((i = .ctEnc ∨ i = .ctDec) ∧ s.cfg.hasFramer = false))
    (hrun : run s.input s.nextDraw = s.finishTransform i) :
    s.withInput run = (turnedAway i s.cfg s.ilen).elim (s.finishTransform i) (State.raise · s) := by
  rw [turnedAway, if_neg hi]
  by_cases hn : s.cfg.nmax < s.ilen.toNat
  · simp [State.withInput_of_overflow run hn, hn]
  · simp [State.withInput_of_fits run (Nat.le_of_not_lt hn), hn, hrun]

/-- The same behind the framer's gate. -/
theorem State.withFramer_eq_elim (s : State) {i : Instr} {run : List Byte → State → State}
    (hi : i = .ctEnc ∨ i = .ctDec) (hrun : run s.input s.nextDraw = s.finishTransform i) :
    s.withFramer (State.withInput run) =
      (turnedAway i s.cfg s.ilen).elim (s.finishTransform i) (State.raise · s) := by
  by_cases hf : s.cfg.hasFramer = true
  · rw [State.withFramer, if_pos hf]
    exact s.withInput_eq_elim (by simp [hf]) hrun
  · have hf' : s.cfg.hasFramer = false := by simpa using hf
    rw [State.withFramer, if_neg hf, turnedAway, if_pos ⟨hi, hf'⟩]
    rfl

/-- A transform command raises the error it is turned away with, or ends as its stage function says. -/
theorem commandRun_transform {i : Instr} (hi : isTransform i = true) (s : State) :
    commandRun i s = (turnedAway i s.cfg s.ilen).elim (s.finishTransform i) (State.raise · s) := by
  cases i with
  | bstFwd => exact s.withInput_eq_elim (i := .bstFwd) nofun rfl
  | bstInv | rrtFwd | rrtInv | rcEnc | rcDec =>
    simp only [commandRun]
    refine s.withInput_eq_elim ?_ ?_
    · simp
    · exact Eq.symm (s.finishTransform_of_ne (by decide))
  | ctEnc => exact s.withFramer_eq_elim (.inl rfl) (Eq.symm (s.finishTransform_of_ne (by decide)))
  | ctDec => exact s.withFramer_eq_elim (.inr rfl) (Eq.symm (s.finishTransform_of_ne (by decide)))
  | _ => cases hi

/-- No stage function fails with the code `NONE`. -/
theorem stageResult_error {cfg : Config} {idx : Word32} {X : List Byte} {i : Instr} {e : ErrCode}
    (h : stageResult cfg idx X i = .error e) : e ≠ .none := by
  cases i with
  | bstInv => rw [bstInv_error h]; decide
  | rrtInv => exact absurd h rrtInvBytes_ne_error
  | rcDec => rcases rcScanFrom_error h with rfl | rfl <;> decide
  | ctDec => exact ctDec_error h
  | _ => cases h

/-- Only `BST.INV` reads `IDX` (10_state.md R48). -/
theorem stageResult_congr_idx {cfg : Config} {idx₁ idx₂ : Word32} {X : List Byte} {i : Instr}
    (h : i = .bstInv → idx₁ = idx₂) : stageResult cfg idx₁ X i = stageResult cfg idx₂ X i := by
  cases i with
  | bstInv => rw [h rfl]
  | _ => rfl

/-! ### What a command can do -/

/-- The commands behind the gate are the transforms, `MOV` and the reserved words. -/
theorem gated_command_cases {i : Instr} (hi : i.space = .command) (hn : i ≠ .nop) (hc : i ≠ .clr) :
    isTransform i = true ∨ i = .mov ∨ ∃ c, i = .reservedCmd c := by
  cases i with
  | nop => exact absurd rfl hn
  | clr => exact absurd rfl hc
  | mov => exact .inr (.inl rfl)
  | reservedCmd c => exact .inr (.inr ⟨c, rfl⟩)
  | rep _ _ | raw _ | hdrStore | hdrComp _ => cases hi
  | _ => exact .inl rfl

theorem isTransform_gated {i : Instr} (hi : isTransform i = true) : i.space = .command ∧ i ≠ .nop ∧ i ≠ .clr := by
  cases i with
  | nop | mov | clr | reservedCmd _ | rep _ _ | raw _ | hdrStore | hdrComp _ => cases hi
  | _ => exact ⟨rfl, nofun, nofun⟩

/-- All a command can do when it answers a next state, down to the operations on the state: nothing, `CLR`, `MOV`, error
entry, the end of a transform. -/
theorem exec_command_cases {i : Instr} {s t : State} (hi : i.space = .command) (h : exec i s = .next t) :
    (t = s ∧ s.st ≠ .busy) ∨ (t = s.clearError ∧ s.st ≠ .busy) ∨
    (i = .mov ∧ s.Accepting ∧ t = s.moveOutput) ∨ (∃ e, e ≠ .none ∧ t = s.raise e) ∨ t = s.finishTransform i := by
  rcases exec_cases hi h with ⟨-, ht, hb⟩ | ⟨-, ht, hb⟩ | ⟨hn, hc, hacc, rfl⟩ | ⟨-, -, he, ht⟩
  · exact .inl ⟨ht, hb⟩
  · exact .inr (.inl ⟨ht, hb⟩)
  · rcases gated_command_cases hi hn hc with htr | rfl | ⟨c, rfl⟩
    · rw [commandRun_transform htr]
      cases hta : turnedAway i s.cfg s.ilen with
      | none => exact .inr (.inr (.inr (.inr rfl)))
      | some e => exact .inr (.inr (.inr (.inl ⟨e, turnedAway_ne_none hta, rfl⟩)))
    · exact .inr (.inr (.inl ⟨rfl, hacc, rfl⟩))
    · exact .inr (.inr (.inr (.inl ⟨.illegalCommand, by decide, rfl⟩)))
  · exact .inl ⟨ht, by simp [he]⟩

/-- A transform in `IDLE` or `DONE` runs. -/
theorem exec_transform {i : Instr} {s : State} (hi : isTransform i = true) (hs : s.Accepting) :
    exec i s = .next (commandRun i s) := by
  obtain ⟨hsp, hn, hc⟩ := isTransform_gated hi
  rw [exec_gated s hsp hn hc, whenAccepting_of_accepting _ hs]

/-- No command runs in `BUSY` (20_memory.md R87). -/
theorem exec_command_of_busy {i : Instr} {s : State} (hi : i.space = .command) (hb : s.st = .busy) :
    exec i s = .refused .accessWhileBusy := by
  by_cases hn : i = .nop
  · rw [hn, exec_nop, unlessBusy_of_busy _ hb]
  by_cases hc : i = .clr
  · rw [hc, exec_clr, unlessBusy_of_busy _ hb]
  rw [exec_gated s hi hn hc, whenAccepting_of_busy _ hb]

/-! ### What a host action can do -/

/-- All a host action can do when it answers a next state. -/
theorem hostAct_cases {a : HostAction} {s t : State} (h : hostAct a s = .next t) :
    (∃ i b, i < s.cfg.nmax ∧ t = { s with ibuf := Memory.write s.ibuf i b }) ∨
    (∃ r v, t = hostWriteReg r v s) ∨
    (∃ r d, t = { s with reply := r, draws := d }) ∨
    (∃ c, exec (decodeCommand s.cfg.hasFramer c) s = .next t) ∨
    t = s.hardReset := by
  unfold hostAct at h
  split at h
  · cases h
  cases a with
  | writeIBuf i b =>
    simp only [hostWriteIBuf] at h
    split at h
    · next hi => cases h; exact .inl ⟨i, b, hi, rfl⟩
    · cases h
  | readIBuf i =>
    simp only [hostReadBuf] at h
    split at h <;> cases h
    exact .inr (.inr (.inl ⟨_, _, rfl⟩))
  | readOBuf i =>
    simp only [hostReadBuf] at h
    split at h <;> cases h
    exact .inr (.inr (.inl ⟨_, _, rfl⟩))
  | writeReg r v => cases h; exact .inr (.inl ⟨r, v, rfl⟩)
  | readReg r => cases h; exact .inr (.inr (.inl ⟨_, _, rfl⟩))
  | command c => exact .inr (.inr (.inr (.inl ⟨c, h⟩)))
  | reset => cases h; exact .inr (.inr (.inr (.inr rfl)))

theorem hostAct_writeReg {s : State} (r : WritableReg) (v : Word32) (hb : s.st ≠ .busy) :
    hostAct (.writeReg r v) s = .next (hostWriteReg r v s) := by
  simp [hostAct, HostAction.blocked_of_ne hb]

theorem hostAct_readReg {s : State} (r : ReadableReg) (hb : s.st ≠ .busy) :
    hostAct (.readReg r) s = .next { s with reply := some (s.readReg r) } := by
  simp [hostAct, HostAction.blocked_of_ne hb]

/-! ### The registers and the status machine -/

/-- Settles O9: each access is its case of `hostAct`, and the codes are `Status.code` and `ErrCode.code`. -/
theorem hostRegisterAccesses : Obligations.HostRegisterAccesses := by
  intro s v hb
  refine ⟨hostAct_writeReg .ilen v hb, hostAct_writeReg .idx v hb, hostAct_readReg .ilen hb, hostAct_readReg .olen hb,
    hostAct_readReg .idx hb, ⟨s.st.code, hostAct_readReg .st hb, ?_⟩, ⟨s.err.code, hostAct_readReg .err hb, ?_⟩⟩
  · simp +contextual [Status.code]
  · simp +contextual [ErrCode.code]

/-- Settles O11, row by row from the gate of the status machine and the statuses a gated command can end in. -/
theorem statusMachineTable : Obligations.StatusMachineTable := by
  intro s i hi
  refine ⟨fun he hn hc => ?_, fun hb hn => ?_, fun hb hc => ?_, fun hs hm => ?_, fun hs htr => ?_,
    fun c hs hr => ?_, exec_command_of_busy hi⟩
  · rw [exec_gated s hi hn hc, whenAccepting_of_error _ he]
  · rw [hn, exec_nop, unlessBusy_of_ne _ hb]
  · exact ⟨s.clearError, by rw [hc, exec_clr, unlessBusy_of_ne _ hb], rfl⟩
  · exact ⟨s.moveOutput, by rw [hm, exec_mov, whenAccepting_of_accepting _ hs], rfl⟩
  · obtain ⟨-, hn, hc⟩ := isTransform_gated htr
    exact ⟨commandRun i s, exec_transform htr hs, commandRun_st hi hn hc s⟩
  · exact ⟨s.raise .illegalCommand, by rw [hr, exec_reservedCmd, whenAccepting_of_accepting _ hs], rfl, rfl⟩

theorem State.finishTransform_st (s : State) (i : Instr) :
    (s.finishTransform i).st = .done ∨ (s.finishTransform i).st = .error :=
  s.nextDraw.conclude_st (stageResult s.cfg s.idx s.input i)

theorem exec_command_not_busy {i : Instr} {s t : State} (hi : i.space = .command) (h : exec i s = .next t) :
    t.st ≠ .busy := by
  rcases exec_command_cases hi h with ⟨rfl, hb⟩ | ⟨rfl, -⟩ | ⟨-, -, rfl⟩ | ⟨e, -, rfl⟩ | rfl
  · exact hb
  · simp
  · simp
  · simp
  · rcases s.finishTransform_st i with h | h <;> simp [h]

@[simp] theorem hostWriteReg_st (r : WritableReg) (v : Word32) (s : State) : (hostWriteReg r v s).st = s.st := by
  cases r <;> rfl

theorem hostAct_not_busy {a : HostAction} {s t : State} (hb : s.st ≠ .busy) (h : hostAct a s = .next t) :
    t.st ≠ .busy := by
  rcases hostAct_cases h with ⟨i, b, -, rfl⟩ | ⟨r, v, rfl⟩ | ⟨r, d, rfl⟩ | ⟨c, hc⟩ | rfl
  · exact hb
  · simpa using hb
  · exact hb
  · exact exec_command_not_busy (decodeCommand_space _ c) hc
  · simp

/-- Settles O15: a step that is not the engine's is a host action, and no host action starts a scan. -/
theorem busyIsNeverObserved : Obligations.BusyIsNeverObserved := by
  intro s t hb h
  rcases step_cases h with ⟨rfl, -⟩ | ⟨a, rest, -, -, ha⟩ | ⟨hbusy, -⟩
  · exact hb
  · exact hostAct_not_busy (s := { s with script := rest }) hb ha
  · exact absurd hbusy hb

/-! ### What a command leaves alone -/

theorem State.finishTransform_frame (s : State) (i : Instr) : CommandFrame s (s.finishTransform i) := by
  obtain ⟨hcfg, hilen, hibuf, hscript, hreply⟩ := s.nextDraw.conclude_frame (stageResult s.cfg s.idx s.input i)
  exact ⟨hcfg, hilen, hibuf, hscript, hreply⟩

/-- Settles O14: the operations a command can end in, but for `MOV`'s, keep the frame, and only the end of `BST.FWD`
writes `IDX`. -/
theorem onlyMovWritesTheInput : Obligations.OnlyMovWritesTheInput := by
  intro i s t hi h
  rcases exec_command_cases hi h with ⟨rfl, -⟩ | ⟨rfl, -⟩ | ⟨hm, -, rfl⟩ | ⟨e, -, rfl⟩ | rfl
  · exact ⟨fun _ => CommandFrame.refl t, fun _ => rfl⟩
  · exact ⟨fun _ => ⟨rfl, rfl, rfl, rfl, rfl⟩, fun _ => rfl⟩
  · exact ⟨fun hne => absurd hm hne, fun _ => rfl⟩
  · exact ⟨fun _ => (s.raise_entered e).frame, fun _ => rfl⟩
  · exact ⟨fun _ => s.finishTransform_frame i, resultIdx_of_ne s.idx s.input⟩

/-! ### What a transform's result depends on -/

/-- Two states show the host the same result of a command. -/
structure SameResult (t₁ t₂ : State) : Prop where
  st : t₁.st = t₂.st
  err : t₁.err = t₂.err
  olen : t₁.olen = t₂.olen
  obuf : t₁.obuf = t₂.obuf

/-- A result and an error depend on the parameters alone, not on the state they are delivered in. -/
theorem State.conclude_sameResult {s₁ s₂ : State} (r : Except ErrCode (List Byte)) (hc : s₁.cfg = s₂.cfg) :
    SameResult (s₁.conclude r) (s₂.conclude r) := by
  cases r with
  | error e => exact ⟨rfl, rfl, rfl, rfl⟩
  | ok Y =>
    simp only [State.conclude_ok]
    by_cases h : s₁.cfg.nmax < Y.length
    · rw [State.deliver_of_overflow h, State.deliver_of_overflow (hc ▸ h)]
      exact ⟨rfl, rfl, rfl, rfl⟩
    · rw [State.deliver_of_fits (Nat.le_of_not_lt h), State.deliver_of_fits (hc ▸ Nat.le_of_not_lt h)]
      exact ⟨rfl, rfl, rfl, rfl⟩

theorem State.finishTransform_sameResult {s₁ s₂ : State} {i : Instr} (hc : s₁.cfg = s₂.cfg)
    (hx : s₁.input = s₂.input) (hidx : i = .bstInv → s₁.idx = s₂.idx) :
    SameResult (s₁.finishTransform i) (s₂.finishTransform i) := by
  have hr : stageResult s₁.cfg s₁.idx s₁.input i = stageResult s₂.cfg s₂.idx s₂.input i := by
    rw [hc, hx, stageResult_congr_idx hidx]
  obtain ⟨hst, herr, holen, hobuf⟩ :=
    State.conclude_sameResult (s₁ := s₁.nextDraw) (s₂ := s₂.nextDraw) (stageResult s₂.cfg s₂.idx s₂.input i) hc
  unfold State.finishTransform
  rw [hr]
  exact ⟨hst, herr, holen, hobuf⟩

/-- Settles O16: both states turn the command away alike, and otherwise its stage function sees the same stream. -/
theorem resultDependsOnTheInputAlone : Obligations.ResultDependsOnTheInputAlone := by
  intro i s₁ s₂ X hi hs₁ hs₂ hc hX₁ hX₂ hidx
  have hx : s₁.input = s₂.input := hX₁.input_eq.trans hX₂.input_eq.symm
  have hl : s₁.ilen = s₂.ilen := BitVec.eq_of_toNat_eq (hX₁.1.trans hX₂.1.symm)
  refine ⟨_, _, exec_transform hi hs₁, exec_transform hi hs₂, ?_⟩
  rw [commandRun_transform hi, commandRun_transform hi, ← hc, ← hl]
  cases turnedAway i s₁.cfg s₁.ilen with
  | some e => exact ⟨rfl, rfl, rfl, rfl, fun _ hd => by cases hd⟩
  | none =>
    obtain ⟨hst, herr, holen, hobuf⟩ := State.finishTransform_sameResult hc hx hidx
    refine ⟨hst, herr, holen, hobuf, fun hf _ => ?_⟩
    subst hf
    simp [State.finishTransform, resultIdx, hx]

/-! ### The invariant -/

section Invariant

variable {s : State}

theorem State.Inv.raise {e : ErrCode} (h : s.Inv) (he : e ≠ .none) : (s.raise e).Inv where
  ibuf_wf := h.ibuf_wf
  obuf_wf := rfl
  ibuf_within := h.ibuf_within
  olen_le := Nat.zero_le _
  obuf_specified := by simp
  err_iff := by simpa using he
  error_olen := fun _ => rfl
  work_discarded := fun _ => rfl
  work_src := Nat.zero_le _
  work_cursor := Nat.zero_le _
  work_out := Nat.zero_le _

theorem State.Inv.deliver (h : s.Inv) (Y : List Byte) : (s.deliver Y).Inv := by
  by_cases hY : s.cfg.nmax < Y.length
  · rw [State.deliver_of_overflow hY]
    exact h.raise (by decide)
  have hfits := Nat.le_of_not_lt hY
  have hd := State.deliver_delivered hfits
  have hst : (s.deliver Y).st ≠ .error := by simp [hd.st]
  exact {
    ibuf_wf := by rw [hd.frame.ibuf]; exact h.ibuf_wf
    obuf_wf := by rw [State.deliver_of_fits hfits]; exact Memory.wf_ofBytes_zero Y
    ibuf_within := by rw [hd.frame.cfg, hd.frame.ibuf]; exact h.ibuf_within
    olen_le := by rw [hd.olen, hd.frame.cfg]; exact hfits
    obuf_specified := fun i => by simp [hd.obuf, hd.olen]
    err_iff := by simp [hd.err, hd.st]
    error_olen := fun he => absurd he hst
    work_discarded := fun _ => State.deliver_work Y s
    work_src := by simp [Work.discarded]
    work_cursor := by simp [Work.discarded]
    work_out := by simp [Work.discarded] }

theorem State.Inv.conclude (h : s.Inv) {r : Except ErrCode (List Byte)} (hr : ∀ e, r = .error e → e ≠ .none) :
    (s.conclude r).Inv := by
  cases r with
  | ok Y => exact h.deliver Y
  | error e => exact h.raise (hr e rfl)

/-- The draw counter is no part of the invariant, nor is `IDX`. -/
theorem State.Inv.finishTransform (h : s.Inv) (i : Instr) : (s.finishTransform i).Inv :=
  have hd : s.nextDraw.Inv := { h with }
  { hd.conclude fun _ => stageResult_error with }

theorem State.Inv.moveOutput (h : s.Inv) (hs : s.Accepting) : s.moveOutput.Inv :=
  { h with
    ibuf_wf := Memory.wf_writeBytes s.output 0 h.ibuf_wf
    ibuf_within := Memory.within_writeBytes s.output h.ibuf_within (by simpa using h.olen_le)
    err_iff := by simp
    error_olen := fun he => by cases he
    work_discarded := fun _ => h.work_discarded hs.ne_busy }

theorem State.Inv.clearError (h : s.Inv) (hb : s.st ≠ .busy) : s.clearError.Inv :=
  { h with
    err_iff := by simp
    error_olen := fun he => by cases he
    work_discarded := fun _ => h.work_discarded hb }

theorem State.resetOf_inv (cfg : Config) : (State.resetOf cfg).Inv where
  ibuf_wf := rfl
  obuf_wf := rfl
  ibuf_within := rfl
  olen_le := Nat.zero_le _
  obuf_specified := by simp
  err_iff := by simp
  error_olen := fun _ => rfl
  work_discarded := fun _ => rfl
  work_src := Nat.zero_le _
  work_cursor := Nat.zero_le _
  work_out := Nat.zero_le _

theorem State.hardReset_inv (s : State) : s.hardReset.Inv := { State.resetOf_inv s.cfg with }

theorem State.Inv.hostWriteReg (h : s.Inv) (r : WritableReg) (v : Word32) : (hostWriteReg r v s).Inv := by
  cases r with
  | ilen => exact { h with }
  | idx => exact { h with }

theorem exec_command_keeps_inv {i : Instr} {t : State} (h : s.Inv) (hi : i.space = .command)
    (ht : exec i s = .next t) : t.Inv := by
  rcases exec_command_cases hi ht with ⟨rfl, -⟩ | ⟨rfl, hb⟩ | ⟨-, hs, rfl⟩ | ⟨e, he, rfl⟩ | rfl
  · exact h
  · exact h.clearError hb
  · exact h.moveOutput hs
  · exact h.raise he
  · exact h.finishTransform i

theorem hostAct_keeps_inv {a : HostAction} {t : State} (h : s.Inv) (ht : hostAct a s = .next t) : t.Inv := by
  rcases hostAct_cases ht with ⟨i, b, hi, rfl⟩ | ⟨r, v, rfl⟩ | ⟨r, d, rfl⟩ | ⟨c, hc⟩ | rfl
  · exact { h with
      ibuf_wf := Memory.wf_write i b h.ibuf_wf
      ibuf_within := Memory.within_write b h.ibuf_within hi }
  · exact h.hostWriteReg r v
  · exact { h with }
  · exact exec_command_keeps_inv h (decodeCommand_space _ c) hc
  · exact s.hardReset_inv

/-- A record whose bytes end inside the stream keeps the invariant. -/
theorem State.Inv.runRecord (h : s.Inv) (hb : s.st = .busy) (bytes : List Byte) {width : Nat}
    (hw : s.work.q + width ≤ s.work.src.length) : (s.runRecord bytes width).Inv := by
  unfold State.runRecord
  split
  · exact h.raise (by decide)
  · next hcap =>
    exact { h with
      work_discarded := fun hne => absurd hb hne
      work_cursor := hw
      work_out := by simpa [overCapacity] using hcap }

/-- A record the decoder reads is all there: its bytes are in the stream (30_encoding.md R107). -/
theorem decodeRecord_width {B rest : List Byte} {i : Instr} (h : decodeRecord B = .ok (i, rest)) :
    (∃ len val, i = .rep len val ∧ 2 ≤ B.length) ∨ (∃ lits, i = .raw lits ∧ 1 + lits.length ≤ B.length) := by
  cases B with
  | nil => cases h
  | cons b bs =>
    simp only [decodeRecord] at h
    split at h
    · cases bs with
      | nil => cases h
      | cons v bs => cases h; exact .inl ⟨_, _, rfl, by simp⟩
    · split at h
      · cases h
      · cases h; exact .inr ⟨_, rfl, by simp; omega⟩

theorem exec_record_keeps_inv {i : Instr} {rest : List Byte} {t : State} (h : s.Inv) (hb : s.st = .busy)
    (hd : decodeRecord (s.work.src.drop s.work.q) = .ok (i, rest)) (ht : exec i s = .next t) : t.Inv := by
  have hq := h.work_cursor
  rcases decodeRecord_width hd with ⟨len, val, rfl, hw⟩ | ⟨lits, rfl, hw⟩
  · cases ht
    exact h.runRecord hb _ (by rw [List.length_drop] at hw; omega)
  · cases ht
    exact h.runRecord hb _ (by rw [List.length_drop] at hw; omega)

theorem recordTurn_keeps_inv {finish : State → State} {t : State} (h : s.Inv) (hb : s.st = .busy)
    (hfin : (finish s).Inv) (ht : recordTurn finish s = .next t) : t.Inv := by
  unfold recordTurn at ht
  split at ht
  · split at ht
    · next hd => exact exec_record_keeps_inv h hb hd ht
    · cases ht; exact h.raise (by decide)
  · cases ht; exact hfin

theorem exec_header_keeps_inv {i : Instr} {rest : List Byte} {t : State} (h : s.Inv) (hb : s.st = .busy)
    (hd : decodeHeader s.work.src = .ok (i, rest)) (ht : exec i s = .next t) : t.Inv := by
  rcases decodeHeader_cases hd with rfl | ⟨w, rfl⟩
  · cases ht
    exact h.deliver _
  · cases ht
    exact { h with
      work_discarded := fun hne => absurd hb hne
      work_src := by have := h.work_src; simp; omega
      work_cursor := Nat.zero_le _
      work_out := Nat.zero_le _ }

theorem State.Inv.finishCtDec (h : s.Inv) : s.finishCtDec.Inv :=
  h.conclude fun _ he => by rw [unrank_error he]; decide

theorem engineTurn_keeps_inv {t : State} (h : s.Inv) (hb : s.st = .busy) (ht : engineTurn s = .next t) : t.Inv := by
  unfold engineTurn at ht
  split at ht
  · split at ht
    · next hd => exact exec_header_keeps_inv h hb hd ht
    · cases ht; exact h.raise (by decide)
  · exact recordTurn_keeps_inv h hb (h.deliver _) ht
  · exact recordTurn_keeps_inv h hb h.finishCtDec ht

end Invariant

/-- Settles O18: `State.reset` is `State.resetOf` of the standard parameters. -/
theorem resetMeetsTheInvariant : Obligations.ResetMeetsTheInvariant :=
  ⟨State.resetOf_inv Config.standard, State.resetOf_inv⟩

/-- Settles O17: a step does nothing, or is a host action, or a turn of the engine, and each keeps the invariant. -/
theorem stepKeepsTheInvariant : Obligations.StepKeepsTheInvariant := by
  intro s t h ht
  rcases step_cases ht with ⟨rfl, -⟩ | ⟨a, rest, -, -, ha⟩ | ⟨hb, -, he⟩
  · exact h
  · exact hostAct_keeps_inv (s := { s with script := rest }) { h with } ha
  · exact engineTurn_keeps_inv h hb he

end Sys2Proof.Machine

/-! SUPPORT. The statements on the host's accesses to the buffers (20_memory.md R72, R76): what one access does on each
side of `NMAX`. -/

namespace Sys2Proof.Machine

variable {s : State} {i : Nat}

/-! ### One access to a buffer -/

theorem hostAct_writeIBuf (b : Byte) (hb : s.st ≠ .busy) :
    hostAct (.writeIBuf i b) s = hostWriteIBuf i b s := by
  simp [hostAct, HostAction.blocked_of_ne hb]

theorem hostAct_readIBuf (hb : s.st ≠ .busy) : hostAct (.readIBuf i) s = hostReadBuf s.ibuf i s := by
  simp [hostAct, HostAction.blocked_of_ne hb]

theorem hostAct_readOBuf (hb : s.st ≠ .busy) : hostAct (.readOBuf i) s = hostReadBuf s.obuf i s := by
  simp [hostAct, HostAction.blocked_of_ne hb]

theorem hostWriteIBuf_of_lt (b : Byte) (hi : i < s.cfg.nmax) :
    hostWriteIBuf i b s = .next { s with ibuf := Memory.write s.ibuf i b } := if_pos hi

theorem hostWriteIBuf_of_le (b : Byte) (hi : s.cfg.nmax ≤ i) :
    hostWriteIBuf i b s = .refused .bufferIndexOutOfRange := if_neg (Nat.not_lt.mpr hi)

/-- Both buffers are read alike: the reply is the byte where it is specified, and only the draw counter moves
besides. -/
theorem hostReadBuf_of_lt (m : Memory) (hi : i < s.cfg.nmax) :
    ∃ v t, hostReadBuf m i s = .next t ∧ t = { s with reply := some (.byte v), draws := t.draws } ∧
      ∀ w, Memory.read m i = some w → v = w :=
  ⟨s.drawByte m i, { s with reply := some (.byte (s.drawByte m i)), draws := s.draws + 1 }, if_pos hi, rfl,
    fun _ hw => State.drawByte_of_read hw⟩

theorem hostReadBuf_of_le (m : Memory) (hi : s.cfg.nmax ≤ i) :
    hostReadBuf m i s = .refused .bufferIndexOutOfRange := if_neg (Nat.not_lt.mpr hi)

/-! ### The statement -/

/-- Settles O8: outside `BUSY` an access is its case of `hostAct`, and each case splits at `NMAX`. -/
theorem hostBufferAccesses : Obligations.HostBufferAccesses := by
  intro s i b hb
  rw [hostAct_writeIBuf b hb, hostAct_readIBuf hb, hostAct_readOBuf hb]
  constructor
  · intro hi
    have hwrite : ∃ t, hostWriteIBuf i b s = .next t ∧ Memory.read t.ibuf i = some b ∧
        (∀ j, j ≠ i → Memory.read t.ibuf j = Memory.read s.ibuf j) ∧ t = { s with ibuf := t.ibuf } :=
      ⟨_, hostWriteIBuf_of_lt b hi, Memory.read_write_same s.ibuf i b,
        fun _ hj => Memory.read_write_other s.ibuf b hj, rfl⟩
    exact ⟨hwrite, hostReadBuf_of_lt s.ibuf hi, hostReadBuf_of_lt s.obuf hi⟩
  · intro hi
    exact ⟨hostWriteIBuf_of_le b hi, hostReadBuf_of_le s.ibuf hi, hostReadBuf_of_le s.obuf hi⟩

end Sys2Proof.Machine

/-! SUPPORT. The statements on the encoding (30_encoding.md): decoding and encoding are inverse of each other in each of
the three places, a run-coded stream is a sequence of encoded records, and what a record and a header do. -/

namespace Sys2Proof

/-! ### The command word -/

theorem decodeCommand_of_reserved {hasFramer : Bool} {c : Byte} (h : reservedCode hasFramer c = true) :
    decodeCommand hasFramer c = .reservedCmd c := by
  revert hasFramer c
  decide

theorem decodeCommand_wf (hasFramer : Bool) (c : Byte) : (decodeCommand hasFramer c).wf hasFramer = true := by
  revert hasFramer c
  decide

theorem encode_decodeCommand (hasFramer : Bool) (c : Byte) : encode (decodeCommand hasFramer c) = [c] := by
  revert hasFramer c
  decide

/-- A command is one byte, which decodes to it (30_encoding.md R100, R101). -/
theorem exists_decodeCommand_eq {hasFramer : Bool} {i : Instr} (hsp : i.space = .command)
    (hwf : i.wf hasFramer = true) : ∃ c, encode i = [c] ∧ decodeCommand hasFramer c = i := by
  cases i with
  | reservedCmd c => exact ⟨c, rfl, decodeCommand_of_reserved hwf⟩
  | ctEnc | ctDec =>
    have hf : hasFramer = true := hwf
    subst hf
    exact ⟨_, rfl, rfl⟩
  | rep _ _ | raw _ | hdrStore | hdrComp _ => cases hsp
  | _ => exact ⟨_, rfl, rfl⟩

/-- The command words read and written: the decoder's answers are the well-formed commands, each from its own byte. -/
theorem decodeCommand_eq_iff {hasFramer : Bool} {c : Byte} {i : Instr} :
    decodeCommand hasFramer c = i ↔ i.wf hasFramer = true ∧ i.space = .command ∧ encode i = [c] := by
  constructor
  · rintro rfl
    exact ⟨decodeCommand_wf hasFramer c, Machine.decodeCommand_space hasFramer c, encode_decodeCommand hasFramer c⟩
  · rintro ⟨hwf, hsp, henc⟩
    obtain ⟨c', hc', hdec⟩ := exists_decodeCommand_eq hsp hwf
    obtain rfl : c' = c := by simpa [hc'] using henc
    exact hdec

/-! ### The header byte of a record -/

@[simp] theorem headerIsRepeat_repeatHeader (len : BitVec 7) : headerIsRepeat (0x80#8 ||| len.setWidth 8) = true := by
  simp [headerIsRepeat]

@[simp] theorem headerLen_repeatHeader (len : BitVec 7) : headerLen (0x80#8 ||| len.setWidth 8) = len := by
  revert len
  decide

/-- A repeat header is bit 7 and the length field (30_encoding.md R106). -/
theorem repeatHeader_headerLen {h : Byte} (h7 : headerIsRepeat h = true) :
    0x80#8 ||| (headerLen h).setWidth 8 = h := by
  revert h
  decide

theorem headerIsRepeat_rawHeader {n : Nat} (hn : n ≤ Config.runCap) : headerIsRepeat (BitVec.ofNat 8 n) = false := by
  have hlt : n < 2 ^ 7 := Nat.lt_succ_of_le hn
  simp only [headerIsRepeat, BitVec.getLsbD_ofNat, Nat.testBit_lt_two_pow hlt, Bool.and_false]

theorem headerLen_rawHeader {n : Nat} (hn : n ≤ Config.runCap) : (headerLen (BitVec.ofNat 8 n)).toNat = n := by
  have hlt : n < 2 ^ 8 := Nat.lt_of_le_of_lt hn (by decide)
  rw [Machine.headerLen_of_raw _ (headerIsRepeat_rawHeader hn), BitVec.toNat_ofNat, Nat.mod_eq_of_lt hlt]

/-- A raw header is its length field (30_encoding.md R109). -/
theorem rawHeader_headerLen {h : Byte} (h7 : headerIsRepeat h = false) : BitVec.ofNat 8 (headerLen h).toNat = h := by
  rw [Machine.headerLen_of_raw h h7, BitVec.ofNat_toNat, BitVec.setWidth_eq]

theorem headerLen_le_runCap (h : Byte) : (headerLen h).toNat ≤ Config.runCap := Nat.le_of_lt_succ (headerLen h).isLt

/-! ### Records -/

theorem decodeRecord_encode_rep (len : BitVec 7) (val : Byte) (rest : List Byte) :
    decodeRecord (encode (.rep len val) ++ rest) = .ok (.rep len val, rest) := by
  simp [encode, decodeRecord]

theorem decodeRecord_encode_raw {lits : List Byte} (hl : lits.length ≤ Config.runCap) (rest : List Byte) :
    decodeRecord (encode (.raw lits) ++ rest) = .ok (.raw lits, rest) := by
  simp [encode, decodeRecord, headerIsRepeat_rawHeader hl, headerLen_rawHeader hl]

/-- The records read and written (30_encoding.md R106 to R111): the decoder reads exactly the well-formed records, each
from its own bytes. -/
theorem decodeRecord_eq_ok_iff {hasFramer : Bool} {bytes rest : List Byte} {i : Instr} :
    decodeRecord bytes = .ok (i, rest) ↔ i.wf hasFramer = true ∧ i.space = .record ∧ encode i ++ rest = bytes := by
  constructor
  · intro hd
    cases bytes with
    | nil => cases hd
    | cons h bs =>
      cases h7 : headerIsRepeat h with
      | true =>
        cases bs with
        | nil => simp [decodeRecord, h7] at hd
        | cons v bs =>
          obtain ⟨rfl, rfl⟩ : .rep (headerLen h) v = i ∧ bs = rest := by simpa [decodeRecord, h7] using hd
          exact ⟨rfl, rfl, by simp [encode, repeatHeader_headerLen h7]⟩
      | false =>
        by_cases hlen : bs.length < (headerLen h).toNat
        · simp [decodeRecord, h7, hlen] at hd
        · obtain ⟨rfl, rfl⟩ : .raw (bs.take (headerLen h).toNat) = i ∧ bs.drop (headerLen h).toNat = rest := by
            simpa [decodeRecord, h7, hlen] using hd
          have htake : (bs.take (headerLen h).toNat).length = (headerLen h).toNat :=
            List.length_take_of_le (Nat.le_of_not_lt hlen)
          refine ⟨?_, rfl, ?_⟩
          · simpa only [Instr.wf, htake, decide_eq_true_eq] using headerLen_le_runCap h
          · rw [encode, htake, rawHeader_headerLen h7, List.cons_append, List.take_append_drop]
  · rintro ⟨hwf, hsp, rfl⟩
    cases i with
    | rep len val => exact decodeRecord_encode_rep len val rest
    | raw lits => exact decodeRecord_encode_raw (by simpa [Instr.wf] using hwf) rest
    | _ => cases hsp

/-! ### Container headers -/

theorem extractByte_toNat (v : Word32) (k : Nat) : (v.extractLsb' k 8).toNat = v.toNat / 2 ^ k % 256 := by
  rw [BitVec.extractLsb'_toNat, Nat.shiftRight_eq_div_pow]

theorem unbe32_toNat (b0 b1 b2 b3 : Byte) :
    (unbe32 b0 b1 b2 b3).toNat = b0.toNat * 2 ^ 24 + b1.toNat * 2 ^ 16 + b2.toNat * 2 ^ 8 + b3.toNat := by
  have h0 := b0.isLt
  have h1 := b1.isLt
  have h2 := b2.isLt
  have h3 := b3.isLt
  rw [unbe32, BitVec.toNat_ofNat]
  omega

/-- Four bytes are their number's bytes, most significant first (00_scope.md R18). -/
@[simp] theorem be32_unbe32 (b0 b1 b2 b3 : Byte) : be32 (unbe32 b0 b1 b2 b3) = [b0, b1, b2, b3] := by
  have h1 := b1.isLt
  have h2 := b2.isLt
  have h3 := b3.isLt
  simp only [be32, List.cons.injEq, ← BitVec.toNat_inj, extractByte_toNat, unbe32_toNat,
    and_true]
  omega

@[simp] theorem unbe32_be32 (v : Word32) :
    unbe32 (v.extractLsb' 24 8) (v.extractLsb' 16 8) (v.extractLsb' 8 8) (v.extractLsb' 0 8) = v := by
  have hv := v.isLt
  simp only [← BitVec.toNat_inj, unbe32_toNat, extractByte_toNat]
  omega

/-- The header a container's first four bytes stand for (30_encoding.md R114). -/
theorem decodeHeader_be32 (v : Word32) (payload : List Byte) :
    decodeHeader (be32 v ++ payload) = .ok (if v = 0 then .hdrStore else .hdrComp v, payload) := by
  simp [be32, decodeHeader]

/-- The decoder of headers reads the first four bytes, and needs all four. -/
theorem decodeHeader_eq_ok {bytes rest : List Byte} {i : Instr} (h : decodeHeader bytes = .ok (i, rest)) :
    ∃ v, bytes = be32 v ++ rest ∧ i = if v = 0 then .hdrStore else .hdrComp v := by
  unfold decodeHeader at h
  split at h
  · next b0 b1 b2 b3 payload =>
    cases h
    exact ⟨unbe32 b0 b1 b2 b3, by simp, rfl⟩
  · cases h

/-- The container headers read and written: 0 is store mode, anything else compressed mode. -/
theorem decodeHeader_eq_ok_iff {hasFramer : Bool} {bytes rest : List Byte} {i : Instr} :
    decodeHeader bytes = .ok (i, rest) ↔ i.wf hasFramer = true ∧ i.space = .header ∧ encode i ++ rest = bytes := by
  constructor
  · intro h
    obtain ⟨v, rfl, rfl⟩ := decodeHeader_eq_ok h
    by_cases hv : v = 0
    · subst hv
      exact ⟨rfl, rfl, rfl⟩
    · rw [if_neg hv]
      exact ⟨decide_eq_true hv, rfl, rfl⟩
  · rintro ⟨hwf, hsp, rfl⟩
    cases i with
    | hdrStore => exact decodeHeader_be32 0 rest
    | hdrComp v =>
      have hv : v ≠ 0 := by simpa [Instr.wf] using hwf
      rw [encode, decodeHeader_be32, if_neg hv]
    | _ => cases hsp

/-! ### Decoding and encoding -/

/-- In each place the decoder reads exactly the well-formed instructions of that place, each from its own bytes. -/
theorem decode_eq_ok_iff {hasFramer : Bool} {sp : Space} {bytes rest : List Byte} {i : Instr} :
    decode hasFramer sp bytes = .ok (i, rest) ↔
      i.wf hasFramer = true ∧ i.space = sp ∧ encode i ++ rest = bytes := by
  cases sp with
  | record => exact decodeRecord_eq_ok_iff
  | header => exact decodeHeader_eq_ok_iff
  | command =>
    cases bytes with
    | nil =>
      refine iff_of_false nofun ?_
      rintro ⟨hwf, hsp, henc⟩
      obtain ⟨c, hc, -⟩ := exists_decodeCommand_eq hsp hwf
      simp [hc] at henc
    | cons c bs =>
      simp only [decode, Except.ok.injEq, Prod.mk.injEq, decodeCommand_eq_iff]
      constructor
      · rintro ⟨⟨hwf, hsp, henc⟩, rfl⟩
        exact ⟨hwf, hsp, by simp [henc]⟩
      · rintro ⟨hwf, hsp, henc⟩
        obtain ⟨c', hc', -⟩ := exists_decodeCommand_eq hsp hwf
        obtain ⟨rfl, rfl⟩ : c' = c ∧ rest = bs := by simpa [hc'] using henc
        exact ⟨⟨hwf, hsp, hc'⟩, rfl⟩

/-- Settles O2: encoded bytes meet the right side of `decode_eq_ok_iff`. -/
theorem decodeOfEncodeIsTheInstruction : Obligations.DecodeOfEncodeIsTheInstruction :=
  fun _ _ _ hwf => decode_eq_ok_iff.mpr ⟨hwf, rfl, rfl⟩

/-- Settles O3, the other direction of `decode_eq_ok_iff`. -/
theorem encodeOfDecodeIsTheBytes : Obligations.EncodeOfDecodeIsTheBytes :=
  fun _ _ _ _ _ h => decode_eq_ok_iff.mp h

/-- Settles O1: the decoder evaluates each of the words. -/
theorem writtenOutWordsDecode : Obligations.WrittenOutWordsDecode :=
  ⟨rfl, rfl, rfl, rfl, rfl, rfl, rfl, rfl, rfl, rfl, rfl⟩

end Sys2Proof

namespace Sys2Proof.Machine

/-! ### Streams of records -/

theorem AreRecords.nil : AreRecords [] := nofun

theorem areRecords_cons {i : Instr} {recs : List Instr} :
    AreRecords (i :: recs) ↔ (i.space = .record ∧ i.wf true = true) ∧ AreRecords recs := List.forall_mem_cons

/-- A record at the front of a stream is read from its bytes, and it has some. -/
theorem exists_cons_of_record {i : Instr} (hi : i.space = .record ∧ i.wf true = true) (B : List Byte) :
    ∃ b bs, encode i ++ B = b :: bs ∧ decodeRecord (b :: bs) = .ok (i, B) := by
  have hd : decodeRecord (encode i ++ B) = .ok (i, B) := decodeRecord_eq_ok_iff.mpr ⟨hi.2, hi.1, rfl⟩
  cases hB : encode i ++ B with
  | nil => rw [hB] at hd; cases hd
  | cons b bs => exact ⟨b, bs, rfl, hB ▸ hd⟩

/-- Where two outputs fit together, the first fits, and the second after it. -/
theorem overCapacity_add {cap : Option Nat} {o a b : Nat} (h : overCapacity cap o (a + b) = false) :
    overCapacity cap o a = false ∧ overCapacity cap (o + a) b = false := by
  cases cap with
  | none => exact ⟨rfl, rfl⟩
  | some n =>
    simp only [overCapacity, decide_eq_false_iff_not] at h ⊢
    omega

/-- A scan over encoded records whose outputs fit delivers these outputs and goes on with the bytes that follow
(42_rc.md R192). -/
theorem rcScanFrom_records {cap : Option Nat} {recs : List Instr} (hrecs : AreRecords recs) (B out : List Byte)
    {fuel : Nat} (hfuel : (recs.flatMap encode ++ B).length ≤ fuel)
    (hcap : overCapacity cap out.length (recs.flatMap recordOutput).length = false) :
    rcScanFrom cap fuel (recs.flatMap encode ++ B) out =
      rcScanFrom cap B.length B (out ++ recs.flatMap recordOutput) := by
  induction recs generalizing out fuel with
  | nil => simpa using rcScanFrom_fuel cap fuel B.length B out (by simpa using hfuel) le_rfl
  | cons i recs ih =>
    obtain ⟨hi, hrecs⟩ := areRecords_cons.mp hrecs
    obtain ⟨b, bs, hB, hd⟩ := exists_cons_of_record hi (recs.flatMap encode ++ B)
    have happ : (i :: recs).flatMap encode ++ B = b :: bs := by simpa using hB
    have hlen := decodeRecord_ok_length hd
    obtain ⟨hhead, htail⟩ :
        overCapacity cap out.length (recordOutput i).length = false ∧
          overCapacity cap (out ++ recordOutput i).length (recs.flatMap recordOutput).length = false := by
      rw [List.flatMap_cons, List.length_append] at hcap
      rw [List.length_append]
      exact overCapacity_add hcap
    rw [happ] at hfuel ⊢
    cases fuel with
    | zero => cases hfuel
    | succ fuel =>
      rw [rcScanFrom_record hd, if_neg (by simp [hhead]),
        ih hrecs _ (Nat.le_of_lt_succ (Nat.lt_of_lt_of_le hlen hfuel)) htail, List.flatMap_cons, List.append_assoc]

/-- A scan without capacity that succeeds has read encoded records, up to the end of the stream. -/
theorem records_of_rcScanFrom {fuel : Nat} {B out Y : List Byte} (hfuel : B.length ≤ fuel)
    (h : rcScanFrom none fuel B out = .ok Y) :
    ∃ recs, AreRecords recs ∧ B = recs.flatMap encode ∧ Y = out ++ recs.flatMap recordOutput := by
  induction fuel generalizing B out with
  | zero =>
    obtain rfl := List.length_eq_zero_iff.mp (Nat.le_zero.mp hfuel)
    cases h
    exact ⟨[], AreRecords.nil, rfl, by simp⟩
  | succ fuel ih =>
    cases B with
    | nil =>
      cases h
      exact ⟨[], AreRecords.nil, rfl, by simp⟩
    | cons b bs =>
      cases hd : decodeRecord (b :: bs) with
      | error r => rw [rcScanFrom_truncated hd] at h; cases h
      | ok p =>
        obtain ⟨i, rest⟩ := p
        obtain ⟨hwf, hsp, henc⟩ := decodeRecord_eq_ok_iff (hasFramer := true).mp hd
        have hlen := decodeRecord_ok_length hd
        rw [rcScanFrom_record hd, if_neg (by simp [overCapacity])] at h
        obtain ⟨recs, hrecs, rfl, rfl⟩ := ih (Nat.le_of_lt_succ (Nat.lt_of_lt_of_le hlen hfuel)) h
        exact ⟨i :: recs, areRecords_cons.mpr ⟨⟨hsp, hwf⟩, hrecs⟩, by simpa using henc.symm, by simp⟩

/-- Settles O51: the scan reads a sequence of records, by induction on its fuel; and it reads every such sequence, by
induction on the records. -/
theorem decoderAcceptsExactlyRecordStreams : Obligations.DecoderAcceptsExactlyRecordStreams := by
  intro B Y
  constructor
  · intro h
    simpa using records_of_rcScanFrom le_rfl h
  · rintro ⟨recs, hrecs, rfl, rfl⟩
    have h := rcScanFrom_records hrecs [] [] (cap := none) le_rfl rfl
    simpa [rcDec] using h

/-! ### Records and headers executed -/

/-- A record whose output fits (42_rc.md R190, R191). -/
theorem State.runRecord_of_fits {s : State} {bytes : List Byte} (width : Nat)
    (h : s.work.out.length + bytes.length ≤ s.cfg.nmax) :
    s.runRecord bytes width =
      { s with work := { s.work with out := s.work.out ++ bytes, q := s.work.q + width } } := by
  rw [State.runRecord, if_neg]
  simpa [overCapacity] using h

/-- Each record is `runRecord` of its output and of the length of its encoding. -/
theorem exec_record {i : Instr} (s : State) (hi : i.space = .record) :
    exec i s = .next (s.runRecord (recordOutput i) (encode i).length) := by
  cases i with
  | rep len val => exact exec_rep len val s
  | raw lits => rw [exec_raw, Laws.EncodedLength.raw lits, recordOutput]
  | _ => cases hi

/-- Settles O32 from the account of `runRecord` for output that fits. -/
theorem recordsAppendTheirOutput : Obligations.RecordsAppendTheirOutput := by
  intro s i hi hfits
  exact ⟨_, by rw [exec_record s hi, State.runRecord_of_fits _ hfits], rfl, rfl, rfl⟩

/-- Settles O33: the bytes after the header are delivered, and they fit. -/
theorem storeHeaderDeliversThePayload : Obligations.StoreHeaderDeliversThePayload := by
  intro s payload hsrc hfits
  have hdrop : s.work.src.drop Config.headerBytes = payload := by rw [hsrc]; rfl
  exact ⟨s.deliver payload, by rw [exec_hdrStore, hdrop], State.deliver_delivered hfits, s.deliver_idx payload⟩

/-- A header that is not 0 can be lowered by `HDR_BIAS` and stays a word (30_encoding.md R121). -/
theorem lowered_header_toNat {h : Word32} (hh : h ≠ 0) (bias : Fin 2) :
    (BitVec.ofNat 32 (h.toNat - bias.val)).toNat + bias.val = h.toNat := by
  have hpos : h.toNat ≠ 0 := fun h0 => hh (BitVec.eq_of_toNat_eq h0)
  have hlt := h.isLt
  have hbias := bias.isLt
  rw [BitVec.toNat_ofNat, Nat.mod_eq_of_lt (by omega)]
  omega

/-- Settles O34: the working state `HDR.COMP` writes, field by field. -/
theorem compressedHeaderStartsThePayloadScan : Obligations.CompressedHeaderStartsThePayloadScan := by
  intro s h payload hh hsrc
  have hdrop : s.work.src.drop Config.headerBytes = payload := by rw [hsrc]; rfl
  exact ⟨_, rfl, lowered_header_toNat hh s.cfg.hdrBias, rfl, hdrop, rfl, rfl, rfl⟩

end Sys2Proof.Machine

/-! SUPPORT. The statements on the Block-Sort Transform (40_bst.md): the counting of `START` and `MAP`, the order of the
rotations as a linear order on keys, `ROT` sorted by it, the backward walk from sorted position to sorted position, and
the commands `BST.FWD` and `BST.INV`. -/

namespace Sys2Proof.Machine

/-! ### Counting: `START` and `MAP` (40_bst.md R140, R141) -/

/-- The values up to `v` are those below `v` and those equal to `v`. -/
theorem countP_lt_add_countP_eq (T : List Byte) (v : Nat) :
    T.countP (fun b => decide (b.toNat < v)) + T.countP (fun b => decide (b.toNat = v)) =
      T.countP fun b => decide (b.toNat ≤ v) := by
  induction T with
  | nil => rfl
  | cons b T ih =>
    simp only [List.countP_cons, decide_eq_true_eq]
    split_ifs <;> omega

theorem cnt_eq_countP (T : List Byte) (v : Nat) : cnt T v = T.countP fun b => decide (b.toNat = v) := rfl

theorem cnt_toNat (T : List Byte) (b : Byte) : cnt T b.toNat = T.countP fun c => decide (c = b) := by
  simp only [cnt_eq_countP, BitVec.toNat_inj]

theorem startOf_succ (T : List Byte) (v : Nat) : startOf T (v + 1) = startOf T v + cnt T v := by
  simp [startOf, List.range_succ]

/-- `START[v]` counts the smaller values (40_bst.md R140). -/
theorem startOf_eq_countP (T : List Byte) (v : Nat) : startOf T v = T.countP fun b => decide (b.toNat < v) := by
  induction v with
  | zero => simp [startOf]
  | succ v ih => rw [startOf_succ, ih, cnt_eq_countP, countP_lt_add_countP_eq]; simp only [Nat.lt_succ_iff]

theorem lfMapFrom_getElem? (T seen rest : List Byte) (j : Nat) :
    (lfMapFrom T seen rest)[j]? =
      rest[j]?.map fun v => startOf T v.toNat + (cnt seen v.toNat + cnt (rest.take j) v.toNat) := by
  induction rest generalizing seen j with
  | nil => rfl
  | cons b rest ih =>
    cases j with
    | zero => simp [lfMapFrom, cnt]
    | succ j => simp [lfMapFrom, ih, cnt, List.countP_cons, Nat.add_assoc, Nat.add_comm, Nat.add_left_comm]

/-- The entries of `MAP` (40_bst.md R141). -/
theorem lfMap_getElem? {T : List Byte} {j : Nat} {b : Byte} (h : T[j]? = some b) :
    (lfMap T)[j]? = some (T.countP (fun c => decide (c.toNat < b.toNat)) + (T.take j).countP fun c => decide (c = b)) := by
  rw [lfMap, lfMapFrom_getElem?, h, Option.map_some, startOf_eq_countP, cnt_toNat (T.take j)]
  simp [cnt]

/-- Settles O40 from the counting lemmas for `START` and `MAP`. -/
theorem lfMapCountsSmallerAndEarlier : Obligations.LfMapCountsSmallerAndEarlier := by
  intro T
  refine ⟨fun v => ⟨startOf_eq_countP T v, cnt_eq_countP T v, ?_⟩, rfl, lfMap_length T, fun _ _ => lfMap_getElem?⟩
  calc startOf T v + cnt T v
      = T.countP fun b => decide (b.toNat ≤ v) := by
        rw [startOf_eq_countP, cnt_eq_countP, countP_lt_add_countP_eq]
    _ ≤ T.length := List.countP_le_length

/-! ### The index check (40_bst.md R139) -/

theorem bstInv_of_out_of_range {T : List Byte} {idx0 : Nat}
    (h : (T = [] ∧ idx0 ≠ 0) ∨ (T ≠ [] ∧ T.length ≤ idx0)) : bstInv T idx0 = .error .invalidIndex := by
  rcases h with ⟨rfl, h⟩ | ⟨hne, h⟩
  · simp [bstInv, h]
  · simp [bstInv, hne, h]

theorem bstInv_of_in_range {T : List Byte} {idx0 : Nat} (h : (T = [] ∧ idx0 = 0) ∨ idx0 < T.length) :
    ∃ Y, bstInv T idx0 = .ok Y ∧ Y.length = T.length := by
  rcases h with ⟨rfl, rfl⟩ | h
  · exact ⟨[], bstInv_nil_zero, rfl⟩
  · exact ⟨_, bstInv_of_lt h, bstInv_ok_length (bstInv_of_lt h)⟩

/-- Settles O39: an index is out of range or in range. -/
theorem bstInverseChecksTheIndexOnly : Obligations.BstInverseChecksTheIndexOnly :=
  fun _ _ => ⟨bstInv_of_out_of_range, bstInv_of_in_range⟩

/-! ### Cyclic indices (20_memory.md R86) -/

variable {X : List Byte}

theorem cyc_of_lt {k : Nat} (h : k < X.length) : cyc X k = X[k] := by
  rw [cyc, Nat.mod_eq_of_lt h, List.getD_eq_getElem _ _ h]

@[simp] theorem cyc_add_length (X : List Byte) (k : Nat) : cyc X (k + X.length) = cyc X k := by
  rw [cyc, Nat.add_mod_right, ← cyc]

theorem map_cyc_range (X : List Byte) : (List.range X.length).map (cyc X) = X :=
  List.ext_getElem (by simp) fun i h _ => by
    rw [List.getElem_map, List.getElem_range, cyc_of_lt]

/-- Going one offset back cyclically rearranges the offsets, seen through anything that has the input's period. -/
theorem map_prev_range_perm {α : Type} {n : Nat} (f : Nat → α) (hf : ∀ k, f (k + n) = f k) :
    ((List.range n).map fun r => f (r + n - 1)).Perm ((List.range n).map f) := by
  cases n with
  | zero => exact List.Perm.refl _
  | succ m =>
    have hshift : ∀ r, f (r + 1 + m) = f r := fun r => by rw [Nat.add_right_comm, Nat.add_assoc, hf]
    calc ((List.range (m + 1)).map fun r => f (r + (m + 1) - 1)).Perm (f m :: (List.range m).map f) := by
          simp [List.range_succ_eq_map, Function.comp_def, hshift]
      List.Perm _ ((List.range (m + 1)).map f) := by
          simpa [List.range_succ] using (List.perm_append_singleton (f m) ((List.range m).map f)).symm

/-! ### The order of the rotations (40_bst.md R132) -/

/-- Rotation `a` as a sequence of numbers: rotations are compared as these are. -/
def rotationKey (X : List Byte) (a : Nat) : List Nat := (X.rotate a).map BitVec.toNat

/-- What an offset is sorted by: its rotation, and equal rotations by the offset. -/
def sortKey (X : List Byte) (a : Nat) : List Nat ×ₗ Nat := toLex (rotationKey X a, a)

@[simp] theorem rotationKey_length (X : List Byte) (a : Nat) : (rotationKey X a).length = X.length := by
  simp [rotationKey]

theorem rotationKey_getElem {a i : Nat} (h : i < (rotationKey X a).length) :
    (rotationKey X a)[i] = (cyc X (a + i)).toNat := by
  have hi : i < X.length := by simpa using h
  have hmod : (a + i) % X.length < X.length := Nat.mod_lt _ (by omega)
  rw [cyc, List.getD_eq_getElem _ _ hmod]
  simp [rotationKey, List.getElem_rotate, Nat.add_comm i a]

@[simp] theorem rotationKey_add_length (X : List Byte) (a : Nat) : rotationKey X (a + X.length) = rotationKey X a := by
  rw [rotationKey, ← List.rotate_mod, Nat.add_mod_right, List.rotate_mod, ← rotationKey]

theorem rotationEq_iff {a b : Nat} : RotationEq X a b ↔ rotationKey X a = rotationKey X b := by
  simp only [List.ext_getElem_iff, rotationKey_length, rotationKey_getElem, BitVec.toNat_inj, RotationEq]
  exact ⟨fun h => ⟨trivial, fun i hi _ => h i hi⟩, fun h i hi => h.2 i hi hi⟩

theorem rotationLess_iff {a b : Nat} : RotationLess X a b ↔ rotationKey X a < rotationKey X b := by
  rw [List.lt_iff_exists]
  simp only [rotationKey_length, lt_irrefl, and_false, false_or, rotationKey_getElem, BitVec.toNat_inj, RotationLess]
  exact ⟨fun ⟨i, hi, hlt, heq⟩ => ⟨i, hi, hi, heq, hlt⟩, fun ⟨i, hi, _, heq, hlt⟩ => ⟨i, hi, hlt, heq⟩⟩

theorem sortsBefore_iff {a b : Nat} : SortsBefore X a b ↔ sortKey X a < sortKey X b := by
  rw [SortsBefore, rotationLess_iff, rotationEq_iff, sortKey, sortKey, Prod.Lex.toLex_lt_toLex]

/-- `compareBytes` is the lexicographic order of the numbers (40_bst.md R131). -/
theorem compareBytes_compares (xs ys : List Byte) :
    (compareBytes xs ys).Compares (xs.map BitVec.toNat) (ys.map BitVec.toNat) := by
  induction xs generalizing ys with
  | nil => cases ys <;> simp [compareBytes]
  | cons x xs ih =>
    cases ys with
    | nil => simp [compareBytes]
    | cons y ys =>
      simp only [compareBytes, List.map_cons]
      split_ifs with hlt hgt
      · exact List.cons_lt_cons_iff.mpr (.inl hlt)
      · exact List.cons_lt_cons_iff.mpr (.inl hgt)
      · have hxy : x.toNat = y.toNat := by omega
        have hrest := ih ys
        cases hc : compareBytes xs ys <;> rw [hc] at hrest
        · exact List.cons_lt_cons_iff.mpr (.inr ⟨hxy, hrest⟩)
        · exact congrArg₂ List.cons hxy hrest
        · exact List.cons_lt_cons_iff.mpr (.inr ⟨hxy.symm, hrest⟩)

theorem rotation_eq_rotate {a : Nat} (h : a ≤ X.length) : rotation X a = X.rotate a :=
  (List.rotate_eq_drop_append_take h).symm

theorem sortsUpTo_iff {a b : Nat} (ha : a ≤ X.length) (hb : b ≤ X.length) :
    sortsUpTo X a b = true ↔ sortKey X a ≤ sortKey X b := by
  have hcmp := compareBytes_compares (rotation X a) (rotation X b)
  rw [rotation_eq_rotate ha, rotation_eq_rotate hb, ← rotationKey, ← rotationKey] at hcmp
  rw [sortsUpTo, rotation_eq_rotate ha, rotation_eq_rotate hb, sortKey, sortKey, Prod.Lex.toLex_le_toLex]
  cases hc : compareBytes (X.rotate a) (X.rotate b) <;> rw [hc] at hcmp
  · simp [show rotationKey X a < rotationKey X b from hcmp]
  · simp [show rotationKey X a = rotationKey X b from hcmp]
  · have hgt : rotationKey X b < rotationKey X a := hcmp
    simp [hgt.not_gt, hgt.ne']

/-! ### `ROT` (40_bst.md R133) -/

theorem insertOffset_eq_orderedInsert {a : Nat} {l : List Nat} (ha : a ≤ X.length) (hl : ∀ b ∈ l, b ≤ X.length) :
    insertOffset X a l = l.orderedInsert (fun a b => sortKey X a ≤ sortKey X b) a := by
  induction l with
  | nil => rfl
  | cons b l ih =>
    obtain ⟨hb, hl⟩ := List.forall_mem_cons.mp hl
    simp only [insertOffset, List.orderedInsert_cons, sortsUpTo_iff ha hb, ih hl]

theorem foldr_insertOffset_eq_insertionSort {l : List Nat} (hl : ∀ a ∈ l, a ≤ X.length) :
    l.foldr (insertOffset X) [] = l.insertionSort fun a b => sortKey X a ≤ sortKey X b := by
  induction l with
  | nil => rfl
  | cons a l ih =>
    obtain ⟨ha, hl⟩ := List.forall_mem_cons.mp hl
    have hsorted : ∀ b ∈ l.foldr (insertOffset X) [], b ≤ X.length := fun b hb =>
      hl b ((foldr_insertOffset_perm X l).mem_iff.mp hb)
    rw [List.foldr_cons, insertOffset_eq_orderedInsert ha hsorted, ih hl, List.insertionSort_cons]

theorem mem_rot {r : Nat} : r ∈ rot X ↔ r < X.length := (rot_perm X).mem_iff.trans List.mem_range

theorem rot_nodup (X : List Byte) : (rot X).Nodup := (rot_perm X).nodup_iff.mpr List.nodup_range

theorem sortKey_injective (X : List Byte) : Function.Injective (sortKey X) := fun _ _ h =>
  congrArg (fun k => (ofLex k).2) h

/-- `ROT` rises strictly in the key. -/
theorem rot_sorted (X : List Byte) : (rot X).Pairwise fun a b => sortKey X a < sortKey X b := by
  have heq : rot X = (List.range X.length).insertionSort fun a b => sortKey X a ≤ sortKey X b :=
    foldr_insertOffset_eq_insertionSort fun a ha => (List.mem_range.mp ha).le
  have hmap : (rot X).map (sortKey X) = ((List.range X.length).map (sortKey X)).insertionSort (· ≤ ·) := by
    rw [heq, List.map_insertionSort _ (· ≤ ·) (sortKey X) _ fun _ _ _ _ => Iff.rfl]
  have hle : ((rot X).map (sortKey X)).SortedLE := hmap ▸ List.sortedLE_insertionSort
  have hlt := hle.sortedLT_of_nodup ((rot_nodup X).map (sortKey_injective X))
  exact List.pairwise_map.mp hlt.pairwise

/-- `ROT` rises in the rotation alone, where equal rotations are not told apart. -/
theorem map_rotationKey_rot_sorted (X : List Byte) : ((rot X).map (rotationKey X)).SortedLE :=
  List.Pairwise.sortedLE <| List.pairwise_map.mpr <| (rot_sorted X).imp fun h =>
    (Prod.Lex.toLex_lt_toLex.mp h).elim le_of_lt fun h => h.1.le

theorem rot_eq_of_sorted {l : List Nat} (hperm : l.Perm (List.range X.length)) (hl : l.Pairwise (SortsBefore X)) :
    l = rot X := by
  have hasymm : ∀ a b, SortsBefore X a b → SortsBefore X b a → a = b := fun a b hab hba =>
    absurd (sortsBefore_iff.mp hab) (sortsBefore_iff.mp hba).not_gt
  exact (hperm.trans (rot_perm X).symm).eq_of_pairwise (fun a b _ _ => hasymm a b) hl
    ((rot_sorted X).imp sortsBefore_iff.mpr)

theorem rot_bstFwd_idx (h : X ≠ []) : (rot X)[(bstFwd X).2]? = some 0 :=
  List.getElem?_idxOf (mem_rot.mpr (List.length_pos_iff.mpr h))

/-! ### The transformed bytes (40_bst.md R134) -/

theorem byteBefore_eq_cyc {r : Nat} (h : r < X.length) : byteBefore X r = cyc X (r + X.length - 1) := by
  unfold byteBefore
  split
  · next hr =>
    rw [show r + X.length - 1 = r - 1 + X.length by omega, cyc_add_length, cyc, Nat.mod_eq_of_lt (by omega)]
  · next hr =>
    rw [show r + X.length - 1 = X.length - 1 by omega, cyc, Nat.mod_eq_of_lt (by omega)]

theorem bstFwd_bytes (X : List Byte) : (bstFwd X).1 = (rot X).map fun r => cyc X (r + X.length - 1) :=
  List.map_congr_left fun _ hr => byteBefore_eq_cyc (mem_rot.mp hr)

/-- Settles O37 from the sortedness of `ROT` and the uniqueness of a strictly sorted arrangement. -/
theorem bstForwardSortsRotations : Obligations.BstForwardSortsRotations := fun X =>
  ⟨rot_perm X, (rot_sorted X).imp sortsBefore_iff.mpr, fun _ => rot_eq_of_sorted, bstFwd_bytes X, rot_bstFwd_idx,
    bstFwd_nil⟩

/-- The byte before a rotation is the rotation's last one, so equal rotations have the same byte before them. -/
theorem RotationEq.byte_before {a b : Nat} (h : RotationEq X a b) :
    cyc X (a + X.length - 1) = cyc X (b + X.length - 1) := by
  by_cases hX : X.length = 0
  · simp [cyc, List.length_eq_zero_iff.mp hX]
  · rw [Nat.add_sub_assoc (by omega), Nat.add_sub_assoc (by omega)]
    exact h _ (by omega)

theorem bstFwd_perm (X : List Byte) : (bstFwd X).1.Perm X := by
  have h : (bstFwd X).1.Perm ((List.range X.length).map fun r => cyc X (r + X.length - 1)) := by
    rw [bstFwd_bytes]
    exact (rot_perm X).map _
  simpa only [map_cyc_range] using h.trans (map_prev_range_perm (cyc X) (cyc_add_length X))

/-- The tie-break does not show in the bytes (40_bst.md R137 (d)). -/
theorem bytes_of_sorted_by_rotation {l : List Nat} (hperm : l.Perm (List.range X.length))
    (hl : l.Pairwise fun a b => ¬ RotationLess X b a) :
    l.map (fun r => cyc X (r + X.length - 1)) = (bstFwd X).1 := by
  have hsorted : (l.map (rotationKey X)).SortedLE :=
    List.Pairwise.sortedLE <| List.pairwise_map.mpr <| hl.imp fun h => not_lt.mp (mt rotationLess_iff.mpr h)
  have hkeys : l.map (rotationKey X) = (rot X).map (rotationKey X) :=
    ((hperm.trans (rot_perm X).symm).map _).eq_of_sortedLE hsorted (map_rotationKey_rot_sorted X)
  rw [bstFwd_bytes]
  refine List.ext_getElem (by simpa using hperm.length_eq) fun i hi hi' => ?_
  simp only [List.length_map] at hi hi'
  have hkey : rotationKey X l[i] = rotationKey X (rot X)[i] := by
    have h := List.getElem_of_eq hkeys (i := i) (by simpa using hi)
    rwa [List.getElem_map, List.getElem_map] at h
  simpa using (rotationEq_iff.mpr hkey).byte_before

/-- Offset 0 stands before every equal rotation (40_bst.md R137 (e)). -/
theorem bstFwd_idx_le_of_rotationEq {p r : Nat} (hr : (rot X)[p]? = some r) (heq : RotationEq X r 0) :
    (bstFwd X).2 ≤ p := by
  obtain ⟨hp, rfl⟩ := List.getElem?_eq_some_iff.mp hr
  have hX : X ≠ [] := fun h => by simp [h] at hp
  obtain ⟨hi, hzero⟩ := List.getElem?_eq_some_iff.mp (rot_bstFwd_idx hX)
  by_contra! hlt
  have hkey := List.pairwise_iff_getElem.mp (rot_sorted X) p _ hp hi hlt
  rw [hzero, sortKey, sortKey, rotationEq_iff.mp heq, Prod.Lex.toLex_lt_toLex] at hkey
  simp at hkey

/-- Settles O38, each consequence from its lemma; (f) is the all-equal input, and one byte is a case of it. -/
theorem bstForwardConsequences : Obligations.BstForwardConsequences := fun X =>
  ⟨bstFwd_length X, bstFwd_perm X, bstFwd_idx_lt, fun _ => bytes_of_sorted_by_rotation,
    fun _ _ => bstFwd_idx_le_of_rotationEq, bstFwd_replicate 1, fun b n => ⟨rot_replicate n b, bstFwd_replicate n b⟩⟩

/-! ### The rotation before a rotation -/

/-- The lexicographic order of two lists is decided where that of their beginnings is. -/
theorem lt_of_take_lt_take {l m : List Nat} {k : Nat} (h : l.take k < m.take k) : l < m := by
  induction k generalizing l m with
  | zero => simp at h
  | succ k ih =>
    cases m with
    | nil => simp at h
    | cons y m =>
      cases l with
      | nil => exact List.nil_lt_cons y m
      | cons x l =>
        simp only [List.take_succ_cons, List.cons_lt_cons_iff] at h ⊢
        exact h.imp_right fun h => ⟨h.1, ih h.2⟩

/-- The rotation before `r`: its last byte moves to the front. -/
theorem rotationKey_prev (hX : X ≠ []) (r : Nat) :
    rotationKey X (r + X.length - 1) =
      (cyc X (r + X.length - 1)).toNat :: (rotationKey X r).take (X.length - 1) := by
  have hpos := List.length_pos_iff.mpr hX
  refine List.ext_getElem (by simp; omega) fun i hi _ => ?_
  rw [rotationKey_getElem hi]
  cases i with
  | zero => rfl
  | succ i =>
    rw [List.getElem_cons_succ, List.getElem_take, rotationKey_getElem,
      show r + X.length - 1 + (i + 1) = r + i + X.length by omega, cyc_add_length]

theorem rotationKey_prev_congr {a b : Nat} (h : rotationKey X a = rotationKey X b) :
    rotationKey X (a + X.length - 1) = rotationKey X (b + X.length - 1) := by
  by_cases hX : X = []
  · simp [hX, rotationKey]
  · rw [rotationKey_prev hX, rotationKey_prev hX, (rotationEq_iff.mpr h).byte_before, h]

/-- The rotations before two others are ordered by their first bytes. -/
theorem rotationKey_prev_lt {a b : Nat} (hX : X ≠ [])
    (h : (cyc X (a + X.length - 1)).toNat < (cyc X (b + X.length - 1)).toNat) :
    rotationKey X (a + X.length - 1) < rotationKey X (b + X.length - 1) := by
  rw [rotationKey_prev hX, rotationKey_prev hX]
  exact List.cons_lt_cons_iff.mpr (.inl h)

/-- Where the first bytes are equal they are ordered as the two others are. -/
theorem rotationKey_prev_le {a b : Nat} (hX : X ≠ [])
    (h : (cyc X (a + X.length - 1)).toNat ≤ (cyc X (b + X.length - 1)).toNat)
    (hle : rotationKey X a ≤ rotationKey X b) :
    rotationKey X (a + X.length - 1) ≤ rotationKey X (b + X.length - 1) := by
  rw [rotationKey_prev hX, rotationKey_prev hX, ← not_lt]
  intro hlt
  rcases List.cons_lt_cons_iff.mp hlt with hlt | ⟨-, hlt⟩
  · exact h.not_gt hlt
  · exact hle.not_gt (lt_of_take_lt_take hlt)

/-! ### Lists around one of their entries -/

theorem take_append_cons_drop {α : Type} {l : List α} {i : Nat} {x : α} (h : l[i]? = some x) :
    l.take i ++ x :: l.drop (i + 1) = l := by
  obtain ⟨hi, rfl⟩ := List.getElem?_eq_some_iff.mp h
  rw [List.getElem_cons_drop, List.take_append_drop]

theorem countP_around {α : Type} {l : List α} {i : Nat} {x : α} (h : l[i]? = some x) (p : α → Bool) :
    l.countP p = (l.take i).countP p + ((l.drop (i + 1)).countP p + if p x then 1 else 0) := by
  conv_lhs => rw [← take_append_cons_drop h]
  rw [List.countP_append, List.countP_cons]

theorem pairwise_around {α : Type} {R : α → α → Prop} {l : List α} (hl : l.Pairwise R) {i : Nat} {x : α}
    (h : l[i]? = some x) : (∀ a ∈ l.take i, R a x) ∧ ∀ b ∈ l.drop (i + 1), R x b := by
  rw [← take_append_cons_drop h] at hl
  obtain ⟨-, hafter, hacross⟩ := List.pairwise_append.mp hl
  exact ⟨fun a ha => hacross a ha x List.mem_cons_self, (List.pairwise_cons.mp hafter).1⟩

/-- In a sorted list the entry at `i` is the one that at most `i` entries are below and more than `i` do not exceed. -/
theorem getElem?_eq_of_countP {α : Type} [LinearOrder α] {l : List α} (hl : l.SortedLE) {i : Nat} {k : α}
    (hlo : l.countP (fun x => decide (x < k)) ≤ i) (hhi : i < l.countP fun x => decide (x ≤ k)) :
    l[i]? = some k := by
  have hi : i < l.length := hhi.trans_le List.countP_le_length
  have hlen : (l.take i).length = i := List.length_take_of_le hi.le
  have hx := List.getElem?_eq_getElem hi
  obtain ⟨hbefore, hafter⟩ := pairwise_around hl.pairwise hx
  rw [countP_around hx] at hlo hhi
  rw [hx, Option.some_inj]
  refine le_antisymm (not_lt.mp fun hgt => ?_) (not_lt.mp fun hlt => ?_)
  · have hnone : (l.drop (i + 1)).countP (fun x => decide (x ≤ k)) = 0 :=
      List.countP_eq_zero.mpr fun b hb => by simpa using hgt.trans_le (hafter b hb)
    have hle := List.countP_le_length (p := fun x => decide (x ≤ k)) (l := l.take i)
    simp only [hgt.not_ge, decide_false, Bool.false_eq_true, if_false] at hhi
    omega
  · have hall : (l.take i).countP (fun x => decide (x < k)) = (l.take i).length :=
      List.countP_eq_length.mpr fun a ha => by simpa using (hbefore a ha).trans_lt hlt
    simp only [hlt, decide_true, if_true] at hlo
    omega

/-! ### The backward walk goes from each rotation to the one before it (40_bst.md R143, R144) -/

/-- `MAP[j]` counted on both sides of `j`: the bytes before that do not exceed `T[j]`, and the smaller ones after. -/
theorem lfMap_around {T : List Byte} {j : Nat} {b : Byte} (h : T[j]? = some b) :
    (lfMap T)[j]? = some
      ((T.take j).countP (fun c => decide (c.toNat ≤ b.toNat)) +
        (T.drop (j + 1)).countP fun c => decide (c.toNat < b.toNat)) := by
  have hle := countP_lt_add_countP_eq (T.take j) b.toNat
  simp only [BitVec.toNat_inj] at hle
  rw [lfMap_getElem? h, countP_around h, ← hle]
  simp only [lt_irrefl, decide_false, Bool.false_eq_true, if_false, Option.some_inj]
  omega

/-- The rotations before those of `ROT` are all the rotations. -/
theorem map_rotationKey_prev_rot_perm (X : List Byte) :
    ((rot X).map fun r => rotationKey X (r + X.length - 1)).Perm ((rot X).map (rotationKey X)) :=
  (((rot_perm X).map _).trans (map_prev_range_perm (rotationKey X) (rotationKey_add_length X))).trans
    ((rot_perm X).symm.map _)

/-- `MAP` leads from a rotation's sorted position to one of the rotation before it; among equal rotations it need not
be the same offset. The key is that `MAP[j]` lies between the counts of the rotations that sort below that rotation
and of those that do not sort above it. -/
theorem rot_lfMap {j r : Nat} (hr : (rot X)[j]? = some r) :
    ∃ i r', (lfMap (bstFwd X).1)[j]? = some i ∧ (rot X)[i]? = some r' ∧
      rotationKey X r' = rotationKey X (r + X.length - 1) := by
  have hX : X ≠ [] := by rintro rfl; cases hr
  have hT : (bstFwd X).1[j]? = some (cyc X (r + X.length - 1)) := by rw [bstFwd_bytes, List.getElem?_map, hr]; rfl
  have hmap := lfMap_around hT
  obtain ⟨hbefore, hafter⟩ := pairwise_around (List.pairwise_map.mp (map_rotationKey_rot_sorted X).pairwise) hr
  rw [bstFwd_bytes, ← List.map_take, ← List.map_drop, List.countP_map, List.countP_map, ← bstFwd_bytes] at hmap
  generalize hi : List.countP _ _ + List.countP _ _ = i at hmap
  have hkey : ((rot X).map (rotationKey X))[i]? = some (rotationKey X (r + X.length - 1)) := by
    have hprev := map_rotationKey_prev_rot_perm X
    refine getElem?_eq_of_countP (map_rotationKey_rot_sorted X) ?_ ?_
    all_goals
      rw [← hprev.countP_eq, List.countP_map, countP_around hr, ← hi]
      simp only [Function.comp_apply, lt_irrefl, le_refl, decide_true, decide_false, if_true, Bool.false_eq_true,
        if_false]
    · refine Nat.add_le_add (List.countP_mono_left fun a _ => ?_) (List.countP_mono_left fun b hb => ?_) <;>
        simp only [Function.comp_apply, decide_eq_true_eq]
      · exact fun h => not_lt.mp fun hlt => h.not_gt (rotationKey_prev_lt hX hlt)
      · exact fun h => not_le.mp fun hle => h.not_ge (rotationKey_prev_le hX hle (hafter b hb))
    · refine Nat.add_lt_add_of_le_of_lt (List.countP_mono_left fun a ha => ?_)
        (Nat.lt_succ_of_le (List.countP_mono_left fun b _ => ?_)) <;>
        simp only [Function.comp_apply, decide_eq_true_eq]
      · exact fun h => rotationKey_prev_le hX h (hbefore a ha)
      · exact fun h => (rotationKey_prev_lt hX h).le
  rw [List.getElem?_map, Option.map_eq_some_iff] at hkey
  obtain ⟨r', hr', hkey⟩ := hkey
  exact ⟨i, r', hmap, hr', hkey⟩

/-- The walk from the sorted position of a rotation equal to rotation `k` finds the bytes `X[0..k)`, the last one
first (40_bst.md R143). -/
theorem walkBack_bstFwd {k cur r : Nat} (hk : k ≤ X.length) (hr : (rot X)[cur]? = some r)
    (heq : rotationKey X r = rotationKey X k) (found : List Byte) :
    walkBack (bstFwd X).1 (lfMap (bstFwd X).1) k cur found = X.take k ++ found := by
  induction k generalizing cur r found with
  | zero => rfl
  | succ k ih =>
    have hprev : k + 1 + X.length - 1 = k + X.length := by omega
    have hbyte : (bstFwd X).1.getD cur 0 = X[k] := by
      rw [bstFwd_bytes, List.getD_eq_getElem?_getD, List.getElem?_map, hr, Option.map_some, Option.getD_some,
        (rotationEq_iff.mpr heq).byte_before, hprev, cyc_add_length, cyc_of_lt]
    obtain ⟨i, r', hi, hr', hkey⟩ := rot_lfMap hr
    rw [rotationKey_prev_congr heq, hprev, rotationKey_add_length] at hkey
    rw [walkBack, hbyte, List.getD_eq_getElem?_getD, hi, Option.getD_some, ih (by omega) hr' hkey,
      List.take_succ_eq_append_getElem (by omega), List.append_assoc, List.singleton_append]

/-- The inverse undoes the forward transform (40_bst.md R145). -/
theorem bstInv_bstFwd (X : List Byte) : bstInv (bstFwd X).1 (bstFwd X).2 = .ok X := by
  by_cases hX : X = []
  · subst hX; exact bstInv_nil_zero
  · have hzero : rotationKey X 0 = rotationKey X X.length := by simpa using (rotationKey_add_length X 0).symm
    rw [bstInv_of_lt (by simpa using bstFwd_idx_lt hX), bstFwd_length,
      walkBack_bstFwd le_rfl (rot_bstFwd_idx hX) hzero]
    simp

/-! ### The commands (40_bst.md R136, R142) -/

variable {s t : State} {Y : List Byte}

theorem exec_bstFwd_delivers (hs : s.Accepting) (hn : s.ilen.toNat ≤ s.cfg.nmax) :
    ∃ t, exec .bstFwd s = .next t ∧ Delivered s t (bstFwd s.input).1 ∧ t.idx.toNat = (bstFwd s.input).2 := by
  have hfits : (bstFwd s.input).1.length ≤ s.nextDraw.cfg.nmax := by simpa using hn
  have hidx : (bstFwd s.input).2 < 2 ^ 32 :=
    ((bstFwd_idx_le s.input).trans (by simpa using hn)).trans_lt s.cfg.nmax_lt
  have hd := (State.deliver_delivered hfits).of_nextDraw
  refine ⟨bstFwdRun s.input s.nextDraw, ?_, ?_, ?_⟩
  · rw [exec_bstFwd, whenAccepting_of_accepting _ hs, State.withInput_of_fits _ hn, bstFwdRun]
  · exact { hd with frame := { hd.frame with } }
  · rw [bstFwdRun, BitVec.toNat_ofNat, Nat.mod_eq_of_lt hidx]

theorem exec_bstInv_delivers (hs : s.Accepting) (hn : s.ilen.toNat ≤ s.cfg.nmax)
    (hY : bstInv s.input s.idx.toNat = .ok Y) :
    ∃ t, exec .bstInv s = .next t ∧ Delivered s t Y ∧ t.idx = s.idx := by
  have hlen : Y.length = s.ilen.toNat := by simpa using bstInv_ok_length hY
  rw [exec_bstInv]
  exact transform_delivers hs hn _ (by simp [hY]) (hlen ▸ hn)

theorem exec_bstInv_invalidIndex (hs : s.Accepting) (hn : s.ilen.toNat ≤ s.cfg.nmax)
    (h : bstInv s.input s.idx.toNat = .error .invalidIndex) :
    ∃ t, exec .bstInv s = .next t ∧ ErrorEntered s t .invalidIndex := by
  refine ⟨s.nextDraw.raise .invalidIndex, ?_, (s.nextDraw.raise_entered .invalidIndex).of_nextDraw⟩
  rw [exec_bstInv, whenAccepting_of_accepting _ hs, State.withInput_of_fits _ hn, State.nextDraw_idx, h,
    State.conclude_error]

/-- An output as long as the input: `OLEN` is `ILEN`. -/
theorem Delivered.olen_eq_ilen (h : Delivered s t Y) (hlen : Y.length = s.ilen.toNat) : t.olen = s.ilen :=
  BitVec.eq_of_toNat_eq (h.olen.trans hlen)

/-- Settles O22: the delivery of `BST.FWD`, or its input is too long. -/
theorem bstFwdCommand : Obligations.BstFwdCommand := by
  intro s hs
  refine ⟨decodeCommand_eq_iff.mpr ⟨rfl, rfl, rfl⟩, fun hn => transform_overflow hs hn _, fun hn => ?_⟩
  obtain ⟨t, ht, hd, hidx⟩ := exec_bstFwd_delivers hs hn
  exact ⟨s.input, t, s.input_agrees, ht, hd, hd.olen_eq_ilen (by simp), hidx⟩

/-- Settles O23: the input is too long, or the index is out of range, or the walk is delivered. -/
theorem bstInvCommand : Obligations.BstInvCommand := by
  intro s hs
  have hnil : s.input = [] ↔ s.ilen.toNat = 0 := by rw [← List.length_eq_zero_iff, s.input_length]
  refine ⟨decodeCommand_eq_iff.mpr ⟨rfl, rfl, rfl⟩, fun hn => transform_overflow hs hn _, fun hn h => ?_,
    fun hn h => ?_⟩
  · exact exec_bstInv_invalidIndex hs hn (bstInv_of_out_of_range (by simpa [hnil] using h))
  · obtain ⟨Y, hY, hlen⟩ := bstInv_of_in_range (T := s.input) (idx0 := s.idx.toNat) (by simpa [hnil] using h)
    obtain ⟨t, ht, hd, hidx⟩ := exec_bstInv_delivers hs hn hY
    exact ⟨s.input, Y, t, s.input_agrees, hY, ht, hd, hd.olen_eq_ilen (by simpa using hlen), hidx⟩

/-! ### A delivery, moved to the input (44_control.md R244) -/

/-- The engine reads a delivered output back as it is: the output stream is the input stream of the state with the
buffers swapped. -/
theorem Delivered.output_eq (h : Delivered s t Y) : t.output = Y :=
  State.InputIs.input_eq (s := { t with ibuf := t.obuf, ilen := t.olen }) ⟨h.olen, fun i _ => h.obuf i⟩

theorem Delivered.exec_mov (h : Delivered s t Y) : exec .mov t = .next t.moveOutput :=
  whenAccepting_of_accepting State.moveOutput (.inr h.st)

theorem Delivered.moveOutput_inputIs (h : Delivered s t Y) : t.moveOutput.InputIs Y := by
  refine ⟨h.olen, fun i hi => ?_⟩
  rw [State.moveOutput_ibuf, h.output_eq, Memory.read_writeBytes, if_pos ⟨i.zero_le, by simpa using hi⟩, Nat.sub_zero]

/-- Settles O42: as functions, `bstInv_bstFwd`; as commands, each delivery is the next command's input. -/
theorem bstRoundTrip : Obligations.BstRoundTrip := by
  refine ⟨bstInv_bstFwd, fun s X hs hin hfits => ?_⟩
  have hn : s.ilen.toNat ≤ s.cfg.nmax := hin.1 ▸ hfits
  obtain ⟨t₁, h₁, hd₁, hidx₁⟩ := exec_bstFwd_delivers hs hn
  rw [hin.input_eq] at hd₁ hidx₁
  have hin₂ := hd₁.moveOutput_inputIs
  have hinv : bstInv t₁.moveOutput.input t₁.moveOutput.idx.toNat = .ok X := by
    rw [hin₂.input_eq, State.moveOutput_idx, hidx₁, bstInv_bstFwd]
  have hn₂ : t₁.moveOutput.ilen.toNat ≤ t₁.moveOutput.cfg.nmax := by
    rw [hin₂.1, State.moveOutput_cfg, hd₁.frame.cfg]
    exact hd₁.fits
  obtain ⟨t₃, h₃, hd₃, -⟩ := exec_bstInv_delivers (.inr rfl) hn₂ hinv
  exact ⟨t₁, t₁.moveOutput, t₃, h₁, hd₁.exec_mov, h₃, hd₃.st, hd₃.olen, hd₃.obuf⟩

end Sys2Proof.Machine

/-! SUPPORT. The statements on the Recency-Rank Transform (41_rrt.md): what `Mtf(k)` does with the list, the list as an
arrangement of the 256 bytes at every moment, the inverse as the forward scan read the other way, the list written out
after any input, and the commands `RRT.FWD` and `RRT.INV`. -/

namespace Sys2Proof.Machine

variable {alpha X Y : List Byte} {b : Byte} {k p : Nat}

/-! ### `Mtf(k)` (41_rrt.md R161) -/

theorem moveToFront_getElem?_zero (h : alpha[k]? = some b) : (moveToFront alpha k)[0]? = some b := by
  simp [moveToFront, h]

theorem moveToFront_getElem?_of_le (alpha : List Byte) (hp : 1 ≤ p) (hk : p ≤ k) :
    (moveToFront alpha k)[p]? = alpha[p - 1]? := by
  obtain ⟨q, rfl⟩ := Nat.exists_eq_add_of_le' hp
  rw [moveToFront, List.getElem?_cons_succ, List.getElem?_eraseIdx, if_pos (Nat.lt_of_succ_le hk), Nat.add_sub_cancel]

theorem moveToFront_getElem?_of_lt (alpha : List Byte) (hk : k < p) : (moveToFront alpha k)[p]? = alpha[p]? := by
  obtain ⟨q, rfl⟩ := Nat.exists_eq_add_of_le' (Nat.one_le_of_lt hk)
  rw [moveToFront, List.getElem?_cons_succ, List.getElem?_eraseIdx, if_neg (by omega)]

/-- `Mtf(0)` changes nothing. -/
theorem moveToFront_zero (h : 0 < alpha.length) : moveToFront alpha 0 = alpha := by
  cases alpha with
  | nil => cases h
  | cons b alpha => rfl

theorem moveToFront_perm (h : k < alpha.length) : (moveToFront alpha k).Perm alpha := by
  rw [moveToFront, List.getD_eq_getElem _ _ h]
  exact List.getElem_cons_eraseIdx_perm h

/-! ### The list at every moment (41_rrt.md R162) -/

theorem initialAlpha_getElem? (hp : p < 256) : initialAlpha[p]? = some (BitVec.ofNat 8 p) := by
  simp [initialAlpha, Config.alphabetSize, hp]

theorem initialAlpha_nodup : initialAlpha.Nodup :=
  List.nodup_range.map_on fun m hm n hn heq => by
    have hm : m < 256 := List.mem_range.mp hm
    have hn : n < 256 := List.mem_range.mp hn
    simpa [← BitVec.toNat_inj, Nat.mod_eq_of_lt hm, Nat.mod_eq_of_lt hn] using heq

theorem initialAlpha_getElem?_toNat (b : Byte) : initialAlpha[b.toNat]? = some b := by
  rw [initialAlpha_getElem? b.isLt, BitVec.ofNat_toNat, BitVec.setWidth_eq]

/-- A value the list can have: the initial one rearranged. -/
def IsAlphabet (alpha : List Byte) : Prop := alpha.Perm initialAlpha

theorem isAlphabet_initialAlpha : IsAlphabet initialAlpha := List.Perm.refl _

namespace IsAlphabet

theorem length (h : IsAlphabet alpha) : alpha.length = 256 := h.length_eq.trans initialAlpha_length

theorem nodup (h : IsAlphabet alpha) : alpha.Nodup := h.nodup_iff.mpr initialAlpha_nodup

theorem mem (h : IsAlphabet alpha) (b : Byte) : b ∈ alpha :=
  h.mem_iff.mpr (List.mem_of_getElem? (initialAlpha_getElem?_toNat b))

theorem moveToFront (h : IsAlphabet alpha) (hk : k < 256) : IsAlphabet (moveToFront alpha k) :=
  (moveToFront_perm (h.length.symm ▸ hk)).trans h

theorem foldl_moveToFront (h : IsAlphabet alpha) {ks : List Nat} (hks : ∀ k ∈ ks, k < 256) :
    IsAlphabet (ks.foldl Machine.moveToFront alpha) := by
  induction ks generalizing alpha with
  | nil => exact h
  | cons k ks ih =>
    obtain ⟨hk, hks⟩ := List.forall_mem_cons.mp hks
    exact ih (h.moveToFront hk) hks

theorem rankOf_lt (h : IsAlphabet alpha) (b : Byte) : rankOf alpha b < 256 :=
  h.length ▸ List.idxOf_lt_length_of_mem (h.mem b)

/-- The rank search finds the one position of a byte. -/
theorem rankOf_eq_iff (h : IsAlphabet alpha) : rankOf alpha b = k ↔ alpha[k]? = some b := by
  constructor
  · rintro rfl
    exact List.getElem?_idxOf (h.mem b)
  · intro hb
    obtain ⟨hk, rfl⟩ := List.getElem?_eq_some_iff.mp hb
    exact h.nodup.idxOf_getElem k hk

/-- A rank fits its byte of the stream. -/
theorem toNat_ofNat_rankOf (h : IsAlphabet alpha) (b : Byte) :
    (BitVec.ofNat 8 (rankOf alpha b)).toNat = rankOf alpha b := by
  rw [BitVec.toNat_ofNat, Nat.mod_eq_of_lt (h.rankOf_lt b)]

/-- The byte of a rank stream at which `b` is found. -/
theorem ofNat_rankOf_eq_iff (h : IsAlphabet alpha) {r : Byte} :
    BitVec.ofNat 8 (rankOf alpha b) = r ↔ alpha[r.toNat]? = some b := by
  rw [← BitVec.toNat_inj, h.toNat_ofNat_rankOf, h.rankOf_eq_iff]

/-- Every byte, as a position, holds an entry. -/
theorem getElem?_toNat (h : IsAlphabet alpha) (r : Byte) : alpha[r.toNat]? = some (alpha.getD r.toNat 0) := by
  have hr : r.toNat < alpha.length := h.length ▸ r.isLt
  rw [List.getD_eq_getElem _ _ hr, List.getElem?_eq_getElem hr]

end IsAlphabet

/-- Settles O43: the entries after one move, position by position, and the list as an arrangement of the bytes after any
number of moves. -/
theorem moveToFrontRearranges : Obligations.MoveToFrontRearranges := by
  refine ⟨fun alpha k b hb => ?_, fun p => initialAlpha_getElem?, fun ks hks => ?_⟩
  · exact ⟨moveToFront_getElem?_zero hb, fun _ => moveToFront_getElem?_of_le alpha,
      fun _ => moveToFront_getElem?_of_lt alpha⟩
  · have h := isAlphabet_initialAlpha.foldl_moveToFront hks
    refine ⟨h.length, fun b => ⟨_, h.rankOf_lt b, h.rankOf_eq_iff.mp rfl, rfl, fun k' hk' => ?_⟩⟩
    exact (h.rankOf_eq_iff.mpr hk').symm

/-! ### The inverse (41_rrt.md R165, R166) -/

theorem rrtInvFrom_cons_of_lt (alpha : List Byte) (R : List Nat) (hk : 255 < k) :
    rrtInvFrom alpha (k :: R) = .error .invalidIndex := if_pos hk

/-- A number in range is followed by the scan of the rest, which may fail. -/
theorem rrtInvFrom_cons_eq_error_iff (alpha : List Byte) {R : List Nat} {e : ErrCode} (hk : k ≤ 255) :
    rrtInvFrom alpha (k :: R) = .error e ↔
      rrtInvFrom (if k ≠ 0 then moveToFront alpha k else alpha) R = .error e := by
  rw [rrtInvFrom, if_neg (Nat.not_lt.mpr hk)]
  cases rrtInvFrom (if k ≠ 0 then moveToFront alpha k else alpha) R <;> simp

/-- A number in range gives its entry; on a list that holds all bytes the move may be made for rank 0 too. -/
theorem rrtInvFrom_cons_eq_ok_iff (h : IsAlphabet alpha) {R : List Nat} (hk : k ≤ 255) :
    rrtInvFrom alpha (k :: R) = .ok Y ↔
      ∃ Y', rrtInvFrom (moveToFront alpha k) R = .ok Y' ∧ alpha.getD k 0 :: Y' = Y := by
  have hmove : (if k ≠ 0 then moveToFront alpha k else alpha) = moveToFront alpha k := by
    split
    · rfl
    · next h0 => rw [not_not.mp h0, moveToFront_zero (by simp [h.length])]
  rw [rrtInvFrom, if_neg (Nat.not_lt.mpr hk), hmove]
  cases rrtInvFrom (moveToFront alpha k) R <;> simp

/-- The scan stops, with `InvalidIndex`, at the first number out of range. -/
theorem rrtInvFrom_eq_error_iff (alpha : List Byte) {R : List Nat} {e : ErrCode} :
    rrtInvFrom alpha R = .error e ↔ (∃ k ∈ R, 255 < k) ∧ e = .invalidIndex := by
  induction R generalizing alpha with
  | nil => simp [rrtInvFrom]
  | cons k R ih =>
    rcases Nat.lt_or_ge 255 k with hk | hk
    · simp [rrtInvFrom_cons_of_lt alpha R hk, hk, eq_comm]
    · simp [rrtInvFrom_cons_eq_error_iff alpha hk, ih, Nat.not_lt.mpr hk]

/-- Settles O45: the errors of the scan, and its success on bytes. -/
theorem rrtInverseChecksTheRange : Obligations.RrtInverseChecksTheRange :=
  ⟨fun _ _ => rrtInvFrom_eq_error_iff initialAlpha, rrtInvBytes_ok⟩

/-! ### Round trip (41_rrt.md R168) -/

/-- A byte of rank `r` is the entry at `r`, and the move is the inverse's. -/
theorem rrtFwdFrom_cons_eq_iff (h : IsAlphabet alpha) {r : Byte} {R : List Byte} :
    rrtFwdFrom alpha (b :: Y) = r :: R ↔
      alpha.getD r.toNat 0 = b ∧ rrtFwdFrom (moveToFront alpha r.toNat) Y = R := by
  rw [rrtFwdFrom, List.cons.injEq, h.ofNat_rankOf_eq_iff, h.getElem?_toNat, Option.some_inj]
  refine and_congr_right fun hb => ?_
  have hrank : rankOf alpha b = r.toNat := h.rankOf_eq_iff.mpr (hb ▸ h.getElem?_toNat r)
  rw [hrank]

/-- Both directions keep the same list, so one undoes the other: the inverse of `R` is the one input whose ranks are
`R`. -/
theorem rrtInvFrom_eq_ok_iff (h : IsAlphabet alpha) {R : List Byte} :
    rrtInvFrom alpha (R.map BitVec.toNat) = .ok Y ↔ rrtFwdFrom alpha Y = R := by
  induction R generalizing alpha Y with
  | nil => cases Y <;> simp [rrtInvFrom, rrtFwdFrom]
  | cons r R ih =>
    simp only [List.map_cons, rrtInvFrom_cons_eq_ok_iff h (Nat.le_of_lt_succ r.isLt), ih (h.moveToFront r.isLt)]
    cases Y with
    | nil => simp [rrtFwdFrom]
    | cons b Y => simp [rrtFwdFrom_cons_eq_iff h, and_comm]

theorem rrtInvBytes_eq_ok_iff {R : List Byte} : rrtInvBytes R = .ok Y ↔ rrtFwd Y = R :=
  rrtInvFrom_eq_ok_iff isAlphabet_initialAlpha

/-- Settles O46, both directions of `rrtInvBytes_eq_ok_iff`. -/
theorem rrtRoundTrips : Obligations.RrtRoundTrips :=
  ⟨fun _ => rrtInvBytes_eq_ok_iff.mpr rfl, fun _ _ => rrtInvBytes_eq_ok_iff.mp⟩

/-! ### The list after an input (41_rrt.md R164) -/

/-- The list after the byte `b` of the input: its entry is moved to the front. -/
def touch (alpha : List Byte) (b : Byte) : List Byte := moveToFront alpha (rankOf alpha b)

theorem IsAlphabet.touch (h : IsAlphabet alpha) (b : Byte) : IsAlphabet (touch alpha b) :=
  h.moveToFront (h.rankOf_lt b)

theorem IsAlphabet.foldl_touch (h : IsAlphabet alpha) (P : List Byte) : IsAlphabet (P.foldl Machine.touch alpha) := by
  induction P generalizing alpha with
  | nil => exact h
  | cons b P ih => exact ih (h.touch b)

theorem IsAlphabet.touch_eq (h : IsAlphabet alpha) (b : Byte) :
    Machine.touch alpha b = b :: alpha.filter (· != b) := by
  rw [Machine.touch, Machine.moveToFront, rankOf, List.eraseIdx_idxOf_eq_erase, h.nodup.erase_eq_filter,
    List.getD_eq_getElem?_getD, List.getElem?_idxOf (h.mem b), Option.getD_some]

/-- The rank at a position is taken in the list after the bytes before it. -/
theorem rrtFwdFrom_getElem? (alpha X : List Byte) (j : Nat) :
    (rrtFwdFrom alpha X)[j]? = X[j]?.map fun b => BitVec.ofNat 8 (rankOf ((X.take j).foldl touch alpha) b) := by
  induction X generalizing alpha j with
  | nil => rfl
  | cons b X ih =>
    cases j with
    | zero => rfl
    | succ j => exact ih (touch alpha b) j

/-- After the bytes `P` the list holds their distinct values, the latest first, and then the others in their old
order. -/
theorem IsAlphabet.foldl_touch_eq (h : IsAlphabet alpha) (P : List Byte) :
    P.foldl Machine.touch alpha = P.dedup.reverse ++ alpha.filter (· ∉ P) := by
  induction P generalizing alpha with
  | nil => simp
  | cons b P ih =>
    have hrest : (alpha.filter (· != b)).filter (· ∉ P) = alpha.filter (· ∉ b :: P) := by
      rw [List.filter_filter]
      exact List.filter_congr fun c _ => by rw [Bool.eq_iff_iff]; simp [and_comm]
    rw [List.foldl_cons, ih (h.touch b), h.touch_eq b]
    by_cases hb : b ∈ P
    · rw [List.dedup_cons_of_mem hb, List.filter_cons_of_neg (by simpa using hb), hrest]
    · rw [List.dedup_cons_of_notMem hb, List.filter_cons_of_pos (by simpa using hb), hrest, List.reverse_cons,
        List.append_assoc, List.singleton_append]

/-- A byte that has come before has the distinct later bytes in front of it. -/
theorem rankOf_foldl_touch_of_last {P Q : List Byte} (hb : b ∉ Q) :
    rankOf ((P ++ b :: Q).foldl touch initialAlpha) b = Q.dedup.length := by
  have h := isAlphabet_initialAlpha.foldl_touch P
  rw [List.foldl_append, List.foldl_cons, (h.touch b).foldl_touch_eq, h.touch_eq, rankOf,
    List.idxOf_append_of_notMem (by simpa using hb)]
  simp [hb]

theorem dedup_filter_perm (q : Byte → Bool) (P : List Byte) : (P.filter q).dedup.Perm (P.dedup.filter q) :=
  (List.perm_ext_iff_of_nodup (List.nodup_dedup _) ((List.nodup_dedup P).filter q)).mpr fun c => by simp

/-- Distinct values are those below a value that is not among them, and those above it. -/
theorem dedup_length_eq_add {P : List Byte} (hb : b ∉ P) :
    P.dedup.length = (P.dedup.filter fun c => decide (c.toNat < b.toNat)).length +
      (P.filter fun c => decide (b.toNat < c.toNat)).dedup.length := by
  have habove : (P.dedup.filter fun c => !decide (c.toNat < b.toNat)) =
      P.dedup.filter fun c => decide (b.toNat < c.toNat) := by
    refine List.filter_congr fun c hc => ?_
    have hne : c.toNat ≠ b.toNat := fun heq => hb (BitVec.eq_of_toNat_eq heq ▸ List.mem_dedup.mp hc)
    rw [← decide_not, decide_eq_decide]
    omega
  rw [(dedup_filter_perm _ P).length_eq, ← habove, ← List.length_eq_length_filter_add]

theorem idxOf_initialAlpha (b : Byte) : initialAlpha.idxOf b = b.toNat :=
  isAlphabet_initialAlpha.rankOf_eq_iff.mpr (initialAlpha_getElem?_toNat b)

theorem mem_take_initialAlpha {c : Byte} {n : Nat} : c ∈ initialAlpha.take n ↔ c.toNat < n := by
  rw [List.mem_take_iff_idxOf_lt (isAlphabet_initialAlpha.mem c), idxOf_initialAlpha]

/-- The smaller bytes are those among `P` and those that are not. -/
theorem length_filter_take_initialAlpha (P : List Byte) (b : Byte) :
    ((initialAlpha.take b.toNat).filter (· ∉ P)).length +
      (P.dedup.filter fun c => decide (c.toNat < b.toNat)).length = b.toNat := by
  have hperm : (P.dedup.filter fun c => decide (c.toNat < b.toNat)).Perm
      ((initialAlpha.take b.toNat).filter (· ∈ P)) := by
    refine (List.perm_ext_iff_of_nodup ((List.nodup_dedup P).filter _)
      ((initialAlpha_nodup.sublist (List.take_sublist _ _)).filter _)).mpr fun c => ?_
    simp [mem_take_initialAlpha, and_comm]
  have hsplit := List.length_eq_length_filter_add (l := initialAlpha.take b.toNat) (· ∈ P)
  have hlen : (initialAlpha.take b.toNat).length = b.toNat :=
    List.length_take_of_le (by simpa using b.isLt.le)
  simp only [← decide_not] at hsplit
  rw [hperm.length_eq]
  omega

/-- In the initial list without some bytes a remaining byte comes after the remaining smaller ones. -/
theorem idxOf_filter_initialAlpha {P : List Byte} (hb : b ∉ P) :
    (initialAlpha.filter (· ∉ P)).idxOf b = ((initialAlpha.take b.toNat).filter (· ∉ P)).length := by
  have hsplit : initialAlpha = initialAlpha.take b.toNat ++ b :: initialAlpha.drop (b.toNat + 1) := by
    rw [← drop_of_getElem? (initialAlpha_getElem?_toNat b), List.take_append_drop]
  have hnot : b ∉ (initialAlpha.take b.toNat).filter (· ∉ P) := fun h =>
    (mem_take_initialAlpha.mp (List.mem_of_mem_filter h)).false
  conv_lhs => rw [hsplit, List.filter_append, List.filter_cons_of_pos (by simpa using hb)]
  rw [List.idxOf_append_of_notMem hnot, List.idxOf_cons_self, Nat.add_zero]

/-- A byte that has not come before has all distinct values that came before in front of it, and those smaller bytes
that are not among them. -/
theorem rankOf_foldl_touch_of_notMem {P : List Byte} (hb : b ∉ P) :
    rankOf (P.foldl touch initialAlpha) b =
      b.toNat + (P.filter (fun c => decide (b.toNat < c.toNat))).dedup.length := by
  have hsmaller := length_filter_take_initialAlpha P b
  have hdistinct := dedup_length_eq_add hb
  rw [isAlphabet_initialAlpha.foldl_touch_eq, rankOf, List.idxOf_append_of_notMem (by simpa using hb),
    List.length_reverse, idxOf_filter_initialAlpha hb]
  omega

theorem rrtFwd_getElem? {j : Nat} (hb : X[j]? = some b) :
    ∃ r, (rrtFwd X)[j]? = some r ∧ r.toNat = rankOf ((X.take j).foldl touch initialAlpha) b :=
  ⟨_, by rw [rrtFwd, rrtFwdFrom_getElem?, hb, Option.map_some],
    (isAlphabet_initialAlpha.foldl_touch _).toNat_ofNat_rankOf b⟩

/-- The bytes before `j`, cut at an earlier place that holds `b`. -/
theorem take_eq_append_cons {j : Nat} (hp : p < j) (hb : X[p]? = some b) :
    X.take j = X.take p ++ b :: (X.take j).drop (p + 1) := by
  have hb' : (X.take j)[p]? = some b := by rw [List.getElem?_take_of_lt hp, hb]
  calc X.take j = (X.take j).take p ++ (X.take j).drop p := (List.take_append_drop p _).symm
    _ = X.take p ++ b :: (X.take j).drop (p + 1) := by
      rw [List.take_take, Nat.min_eq_left hp.le, drop_of_getElem? hb']

theorem notMem_drop_take {j : Nat} (h : ∀ q, p < q → q < j → X[q]? ≠ some b) : b ∉ (X.take j).drop (p + 1) := by
  intro hmem
  obtain ⟨i, hi⟩ := List.mem_iff_getElem?.mp hmem
  rw [List.getElem?_drop, List.getElem?_take] at hi
  split at hi
  · next hlt => exact h _ (by omega) hlt hi
  · cases hi

/-- Settles O44: the rank is taken in the list written out by `IsAlphabet.foldl_touch_eq`, from the last earlier
occurrence or from the start. -/
theorem rankClosedForm : Obligations.RankClosedForm := by
  intro X j b hb
  obtain ⟨r, hr, hrank⟩ := rrtFwd_getElem? hb
  refine ⟨fun p hp hpb hlast => ⟨r, hr, ?_⟩, fun hnew => ⟨r, hr, ?_⟩⟩
  · conv_lhs => rw [hrank, take_eq_append_cons hp hpb]
    exact rankOf_foldl_touch_of_last (notMem_drop_take hlast)
  · rw [hrank, rankOf_foldl_touch_of_notMem hnew]

/-! ### The commands (41_rrt.md R163, R167) -/

variable {s : State}

theorem exec_rrtFwd_delivers (hs : s.Accepting) (hn : s.ilen.toNat ≤ s.cfg.nmax) :
    ∃ t, exec .rrtFwd s = .next t ∧ Delivered s t (rrtFwd s.input) ∧ t.idx = s.idx := by
  rw [exec_rrtFwd]
  exact transform_delivers hs hn _ rfl (by simpa using hn)

theorem exec_rrtInv_delivers (hs : s.Accepting) (hn : s.ilen.toNat ≤ s.cfg.nmax) (hY : rrtInvBytes s.input = .ok Y)
    (hlen : Y.length = s.ilen.toNat) : ∃ t, exec .rrtInv s = .next t ∧ Delivered s t Y ∧ t.idx = s.idx := by
  rw [exec_rrtInv]
  exact transform_delivers hs hn _ (by simp [hY]) (hlen ▸ hn)

/-- Settles O24: the delivery of `RRT.FWD`, or its input is too long. -/
theorem rrtFwdCommand : Obligations.RrtFwdCommand := by
  intro s hs
  refine ⟨decodeCommand_eq_iff.mpr ⟨rfl, rfl, rfl⟩, fun hn => transform_overflow hs hn _, fun hn => ?_⟩
  obtain ⟨t, ht, hd, hidx⟩ := exec_rrtFwd_delivers hs hn
  exact ⟨s.input, t, s.input_agrees, ht, hd, hd.olen_eq_ilen (by simp), hidx⟩

/-- Settles O25: the inverse succeeds on every input stream, which is delivered, or the input is too long. -/
theorem rrtInvCommand : Obligations.RrtInvCommand := by
  intro s hs
  refine ⟨decodeCommand_eq_iff.mpr ⟨rfl, rfl, rfl⟩, fun hn => transform_overflow hs hn _, fun hn => ?_⟩
  obtain ⟨Y, hY, hlen⟩ := rrtInvBytes_ok s.input
  rw [s.input_length] at hlen
  obtain ⟨t, ht, hd, hidx⟩ := exec_rrtInv_delivers hs hn hY hlen
  exact ⟨s.input, Y, t, s.input_agrees, hY, ht, hd, hd.olen_eq_ilen hlen, hidx⟩

end Sys2Proof.Machine

/-! SUPPORT. The statements on the Run Codec (42_rc.md): what `Run` and `Lit` measure, what one turn of the encoder's
scan emits and which records follow one another, the decoder on complete and incomplete streams, the sizes, and the
commands `RC.ENC` and `RC.DEC`. -/

namespace Sys2Proof.Machine

/-! ### `Run` (42_rc.md R181) -/

/-- `Run` measures the values at the front that equal the first. -/
theorem le_runOf_iff {v : Byte} {cap k : Nat} {S : List Byte} :
    k ≤ runOf v cap S ↔ k ≤ cap ∧ ∀ j < k, S[j]? = some v := by
  fun_induction runOf v cap S generalizing k with
  | case1 S => exact ⟨fun h => ⟨h, fun j hj => by omega⟩, And.left⟩
  | case2 cap =>
    cases k with
    | zero => simp
    | succ k => exact iff_of_false (by omega) fun h => by simpa using h.2 0 k.succ_pos
  | case3 cap S ih =>
    cases k with
    | zero => simp
    | succ k =>
      rw [Nat.add_le_add_iff_right, Nat.add_le_add_iff_right, Nat.forall_lt_succ_left, ih]
      simp
  | case4 cap x S hx =>
    cases k with
    | zero => simp
    | succ k => exact iff_of_false (by omega) fun h => hx (by simpa using h.2 0 k.succ_pos)

theorem le_runLen_iff {v : Byte} {S : List Byte} {k : Nat} :
    k ≤ runLen (v :: S) ↔ k ≤ 127 ∧ ∀ j < k, (v :: S)[j]? = some v := le_runOf_iff

theorem runLen_le (S : List Byte) : runLen S ≤ 127 := by
  cases S with
  | nil => exact Nat.zero_le _
  | cons v S => exact (le_runLen_iff.mp le_rfl).1

/-- Settles O47: a run is one longer exactly where the next value is equal and the cap allows it. -/
theorem runIsTheLongestUpToTheCap : Obligations.RunIsTheLongestUpToTheCap := by
  intro v S
  obtain ⟨hle, hrun⟩ := le_runLen_iff.mp (le_refl (runLen (v :: S)))
  refine ⟨le_runLen_iff.mpr ⟨by decide, by simp⟩, hle, hrun, fun hlt hnext => ?_⟩
  have hlonger : runLen (v :: S) + 1 ≤ runLen (v :: S) :=
    le_runLen_iff.mpr ⟨hlt, Nat.forall_lt_succ_right.mpr ⟨hrun, hnext⟩⟩
  omega

theorem take_runLen (v : Byte) (S : List Byte) :
    (v :: S).take (runLen (v :: S)) = List.replicate (runLen (v :: S)) v := by
  obtain ⟨-, hrun⟩ := le_runLen_iff.mp (le_refl (runLen (v :: S)))
  refine List.ext_getElem? fun j => ?_
  by_cases hj : j < runLen (v :: S)
  · rw [List.getElem?_take_of_lt hj, hrun j hj, List.getElem?_replicate_of_lt hj]
  · rw [List.getElem?_take_eq_none (by omega), List.getElem?_eq_none (by simpa using hj)]

/-! ### `Lit` (42_rc.md R182) -/

theorem runOfThreeStarts_iff {S : List Byte} :
    runOfThreeStarts S = true ↔ ∃ a, S[0]? = some a ∧ S[1]? = some a ∧ S[2]? = some a := by
  match S with
  | [] | [_] | [_, _] => simp [runOfThreeStarts]
  | a :: b :: c :: S =>
    simp only [runOfThreeStarts, Bool.and_eq_true, decide_eq_true_eq]
    constructor
    · rintro ⟨rfl, rfl⟩
      exact ⟨a, rfl, rfl, rfl⟩
    · rintro ⟨x, ⟨⟩, ⟨⟩, ⟨⟩⟩
      exact ⟨rfl, rfl⟩

theorem runOfThreeStarts_drop_iff {S : List Byte} {k : Nat} :
    runOfThreeStarts (S.drop k) = true ↔ ∃ a, S[k]? = some a ∧ S[k + 1]? = some a ∧ S[k + 2]? = some a := by
  simp [runOfThreeStarts_iff]

/-- The test that ends a literal segment is the test for a repeat record. -/
theorem runOfThreeStarts_eq_true_iff {S : List Byte} : runOfThreeStarts S = true ↔ 2 < runLen S := by
  cases S with
  | nil => simp [runOfThreeStarts, runLen]
  | cons v S =>
    have hrun : 3 ≤ runLen (v :: S) ↔ S[0]? = some v ∧ S[1]? = some v := by
      rw [le_runLen_iff, Nat.forall_lt_succ_left, Nat.forall_lt_succ_left, Nat.forall_lt_succ_left]
      simp
    rw [Nat.lt_iff_add_one_le, hrun, runOfThreeStarts_iff]
    simp

theorem runOfThreeStarts_eq_false_iff {S : List Byte} : runOfThreeStarts S = false ↔ runLen S ≤ 2 := by
  rw [← Nat.not_lt, ← runOfThreeStarts_eq_true_iff, Bool.not_eq_true]

/-- `Lit` measures the positions at the front where no run of three starts. -/
theorem le_litOf_iff {cap k : Nat} {S : List Byte} :
    k ≤ litOf cap S ↔ k ≤ cap ∧ k ≤ S.length ∧ ∀ j < k, runOfThreeStarts (S.drop j) = false := by
  fun_induction litOf cap S generalizing k with
  | case1 S => exact ⟨fun h => ⟨h, by omega, fun j hj => by omega⟩, And.left⟩
  | case2 cap => exact ⟨fun h => ⟨by omega, h, fun j hj => by omega⟩, fun h => h.2.1⟩
  | case3 cap x S hx =>
    cases k with
    | zero => simp
    | succ k => exact iff_of_false (by omega) fun h => by simpa [hx] using h.2.2 0 k.succ_pos
  | case4 cap x S hx ih =>
    cases k with
    | zero => simp
    | succ k =>
      rw [List.length_cons, Nat.add_le_add_iff_right, Nat.add_le_add_iff_right, Nat.add_le_add_iff_right,
        Nat.forall_lt_succ_left, ih]
      simp [hx]

theorem le_litLen_iff {S : List Byte} {k : Nat} :
    k ≤ litLen S ↔ k ≤ 127 ∧ k ≤ S.length ∧ ∀ j < k, runOfThreeStarts (S.drop j) = false := le_litOf_iff

theorem litLen_pos {S : List Byte} (hS : S ≠ []) (h : runLen S ≤ 2) : 1 ≤ litLen S :=
  le_litLen_iff.mpr ⟨by decide, List.length_pos_iff.mpr hS, by simpa using runOfThreeStarts_eq_false_iff.mpr h⟩

/-- What ends a literal segment. -/
theorem litLen_stops (S : List Byte) :
    litLen S = S.length ∨ litLen S = 127 ∨ runOfThreeStarts (S.drop (litLen S)) = true := by
  by_contra! h
  obtain ⟨hlen, hcap, hthree⟩ := h
  obtain ⟨hle, hle', hlits⟩ := le_litLen_iff.mp (le_refl (litLen S))
  have hlonger : litLen S + 1 ≤ litLen S :=
    le_litLen_iff.mpr ⟨by omega, by omega, Nat.forall_lt_succ_right.mpr ⟨hlits, by simpa using hthree⟩⟩
  omega

/-- Settles O48 from what `Lit` measures and what ends it. -/
theorem literalSegmentStopsWhereItMust : Obligations.LiteralSegmentStopsWhereItMust := by
  intro S hS hrun
  obtain ⟨hle, hle', hlits⟩ := le_litLen_iff.mp (le_refl (litLen S))
  refine ⟨litLen_pos hS hrun, hle, hle', fun j a hj ha => ?_, ?_⟩
  · have hthree : runOfThreeStarts (S.drop j) = true := runOfThreeStarts_drop_iff.mpr ⟨a, ha⟩
    simp [hlits j hj] at hthree
  · simpa only [runOfThreeStarts_drop_iff] using litLen_stops S

/-! ### One turn of the encoder's scan (42_rc.md R183) -/

/-- Fuel beyond the input's length changes nothing. -/
theorem rcRecordsFrom_fuel {fuel fuel' : Nat} {S : List Byte} (h : S.length ≤ fuel) (h' : S.length ≤ fuel') :
    rcRecordsFrom fuel S = rcRecordsFrom fuel' S := by
  induction fuel generalizing fuel' S with
  | zero =>
    obtain rfl := List.length_eq_zero_iff.mp (Nat.le_zero.mp h)
    cases fuel' <;> rfl
  | succ fuel ih =>
    cases S with
    | nil => cases fuel' <;> rfl
    | cons v S =>
      cases fuel' with
      | zero => cases h'
      | succ fuel' =>
        have hstep {k : Nat} (hk : 1 ≤ k) :
            rcRecordsFrom fuel ((v :: S).drop k) = rcRecordsFrom fuel' ((v :: S).drop k) := by
          simp only [List.length_cons] at h h'
          exact ih (by simp; omega) (by simp; omega)
        simp only [rcRecordsFrom]
        split
        · rw [hstep (by omega)]
        · rw [hstep (litLen_pos (List.cons_ne_nil v S) (by omega))]

@[simp] theorem rcRecords_nil : rcRecords [] = [] := rfl

theorem rcRecords_of_run {v : Byte} {S : List Byte} (h : 2 < runLen (v :: S)) :
    rcRecords (v :: S) =
      .rep (BitVec.ofNat 7 (runLen (v :: S))) v :: rcRecords ((v :: S).drop (runLen (v :: S))) := by
  rw [rcRecords, List.length_cons, rcRecordsFrom, if_pos h]
  exact congrArg _ (rcRecordsFrom_fuel (by simp; omega) le_rfl)

theorem rcRecords_of_literals {S : List Byte} (hS : S ≠ []) (h : runLen S ≤ 2) :
    rcRecords S = .raw (S.take (litLen S)) :: rcRecords (S.drop (litLen S)) := by
  have hpos := litLen_pos hS h
  cases S with
  | nil => exact absurd rfl hS
  | cons v S =>
    rw [rcRecords, List.length_cons, rcRecordsFrom, if_neg (by omega)]
    exact congrArg _ (rcRecordsFrom_fuel (by simp; omega) le_rfl)

theorem runLen_toNat (S : List Byte) : (BitVec.ofNat 7 (runLen S)).toNat = runLen S := by
  have := runLen_le S
  rw [BitVec.toNat_ofNat, Nat.mod_eq_of_lt (by omega)]

/-! ### What the encoder emits (42_rc.md R187) -/

/-- The records the encoder emits: repeat records of 3 to 127 values, raw records of 1 to 127. -/
def IsEncoderRecord (i : Instr) : Prop :=
  (∃ len val, i = .rep len val ∧ 3 ≤ len.toNat ∧ len.toNat ≤ 127) ∨
    ∃ lits, i = .raw lits ∧ 1 ≤ lits.length ∧ lits.length ≤ 127

/-- Record `j` may come right after record `i`: only a repeat record after a raw record that is not full, and a repeat
record with the same value only after one of length 127. -/
def MayFollow (i j : Instr) : Prop :=
  (∀ lits, i = .raw lits → lits.length < 127 → ∃ len val, j = .rep len val) ∧
    ∀ l₁ l₂ val, i = .rep l₁ val → j = .rep l₂ val → l₁.toNat = 127

/-- Where a run of three starts the encoder emits a repeat record. -/
theorem exists_rep_of_run {S : List Byte} {j : Instr} (h : 2 < runLen S) (hj : (rcRecords S).head? = some j) :
    ∃ len val, j = .rep len val := by
  cases S with
  | nil => cases hj
  | cons v S =>
    rw [rcRecords_of_run h] at hj
    cases hj
    exact ⟨_, _, rfl⟩

/-- A repeat record is emitted for the value that stands there. -/
theorem getElem?_zero_of_rep {S : List Byte} {len : BitVec 7} {val : Byte}
    (h : (rcRecords S).head? = some (.rep len val)) : S[0]? = some val := by
  cases S with
  | nil => cases h
  | cons v S =>
    by_cases hrun : 2 < runLen (v :: S)
    · rw [rcRecords_of_run hrun] at h
      cases h
      rfl
    · rw [rcRecords_of_literals (List.cons_ne_nil v S) (Nat.le_of_not_lt hrun)] at h
      cases h

/-- After a run the same value comes next only where the cap cut the run. -/
theorem mayFollow_run {v : Byte} {S : List Byte} {j : Instr}
    (hj : (rcRecords ((v :: S).drop (runLen (v :: S)))).head? = some j) :
    MayFollow (.rep (BitVec.ofNat 7 (runLen (v :: S))) v) j := by
  refine ⟨nofun, ?_⟩
  rintro _ l₂ _ ⟨⟩ rfl
  have hnext : (v :: S)[runLen (v :: S)]? = some v := by simpa using getElem?_zero_of_rep hj
  obtain ⟨-, hle, -, hmax⟩ := runIsTheLongestUpToTheCap v S
  exact (runLen_toNat _).trans (hle.eq_or_lt.resolve_right fun hlt => hmax hlt hnext)

/-- After literals that neither fill their record nor end the input, a run of three starts. -/
theorem mayFollow_literals {S : List Byte} {j : Instr} (hj : (rcRecords (S.drop (litLen S))).head? = some j) :
    MayFollow (.raw (S.take (litLen S))) j := by
  refine ⟨?_, nofun⟩
  rintro _ ⟨⟩ hshort
  obtain ⟨-, hle, -⟩ := le_litLen_iff.mp (le_refl (litLen S))
  rw [List.length_take_of_le hle] at hshort
  rcases litLen_stops S with hall | hfull | hthree
  · simp [hall] at hj
  · exact absurd hfull hshort.ne
  · exact exists_rep_of_run (runOfThreeStarts_eq_true_iff.mp hthree) hj

/-- All one turn of the encoder's scan does: it emits a record for values at the front, goes on with the rest, and the
record after it, if there is one, may follow. -/
theorem exists_rcRecords_eq_cons {S : List Byte} (hS : S ≠ []) :
    ∃ i rest, rcRecords S = i :: rcRecords rest ∧ recordOutput i ++ rest = S ∧ rest.length < S.length ∧
      IsEncoderRecord i ∧ ∀ j, (rcRecords rest).head? = some j → MayFollow i j := by
  have hpos := List.length_pos_iff.mpr hS
  by_cases hrun : 2 < runLen S
  · obtain ⟨v, S, rfl⟩ := List.exists_cons_of_ne_nil hS
    have hlen := runLen_toNat (v :: S)
    have hle := runLen_le (v :: S)
    refine ⟨_, _, rcRecords_of_run hrun, ?_, ?_, .inl ⟨_, v, rfl, by omega, by omega⟩, fun j hj => mayFollow_run hj⟩
    · rw [recordOutput, hlen, ← take_runLen, List.take_append_drop]
    · rw [List.length_drop]; omega
  · have hlit := litLen_pos hS (Nat.le_of_not_lt hrun)
    obtain ⟨hle, hle', -⟩ := le_litLen_iff.mp (le_refl (litLen S))
    have hlen : (S.take (litLen S)).length = litLen S := List.length_take_of_le hle'
    refine ⟨_, _, rcRecords_of_literals hS (Nat.le_of_not_lt hrun), List.take_append_drop _ S, ?_,
      .inr ⟨_, rfl, by omega, by omega⟩, fun j hj => mayFollow_literals hj⟩
    rw [List.length_drop]; omega

/-- The records of the encoder, by induction over the turns of its scan: their outputs make up the input, each is one of
the records above, and each may follow the one before it. -/
theorem rcRecords_spec (S : List Byte) :
    (rcRecords S).flatMap recordOutput = S ∧ (∀ i ∈ rcRecords S, IsEncoderRecord i) ∧
      (rcRecords S).IsChain MayFollow := by
  induction hn : S.length using Nat.strong_induction_on generalizing S with
  | _ n ih =>
    by_cases hS : S = []
    · subst hS
      exact ⟨rfl, nofun, .nil⟩
    · obtain ⟨i, rest, heq, hout, hlt, hi, hfollow⟩ := exists_rcRecords_eq_cons hS
      obtain ⟨ihout, ihrec, ihchain⟩ := ih rest.length (hn ▸ hlt) rest rfl
      rw [heq]
      exact ⟨by rw [List.flatMap_cons, ihout, hout], List.forall_mem_cons.mpr ⟨hi, ihrec⟩,
        List.isChain_cons.mpr ⟨fun j hj => hfollow j hj, ihchain⟩⟩

theorem rcRecords_output (S : List Byte) : (rcRecords S).flatMap recordOutput = S := (rcRecords_spec S).1

theorem isEncoderRecord_of_mem {S : List Byte} {i : Instr} (h : i ∈ rcRecords S) : IsEncoderRecord i :=
  (rcRecords_spec S).2.1 i h

theorem rcRecords_isChain (S : List Byte) : (rcRecords S).IsChain MayFollow := (rcRecords_spec S).2.2

theorem mayFollow_of_rcRecords_eq {S : List Byte} {before after : List Instr} {i j : Instr}
    (h : rcRecords S = before ++ i :: j :: after) : MayFollow i j :=
  (List.isChain_append_cons_cons.mp (h ▸ rcRecords_isChain S)).2.1

theorem repHeader_notMem {len : BitVec 7} (h : 3 ≤ len.toNat) :
    0x80#8 ||| len.setWidth 8 ∉ [0x00#8, 0x80#8, 0x81#8, 0x82#8] := by
  revert len
  decide

theorem rawHeader_notMem {n : Nat} (h : 1 ≤ n) (hn : n ≤ 127) :
    BitVec.ofNat 8 n ∉ [0x00#8, 0x80#8, 0x81#8, 0x82#8] := by
  simp only [List.mem_cons, List.not_mem_nil, or_false, ← BitVec.toNat_inj, BitVec.toNat_ofNat]
  omega

theorem IsEncoderRecord.header_notMem {i : Instr} (hi : IsEncoderRecord i) {h : Byte}
    (hh : (encode i).head? = some h) : h ∉ [0x00#8, 0x80#8, 0x81#8, 0x82#8] := by
  rcases hi with ⟨len, val, rfl, hlen, -⟩ | ⟨lits, rfl, hpos, hle⟩
  · cases hh
    exact repHeader_notMem hlen
  · cases hh
    exact rawHeader_notMem hpos hle

/-- Settles O49 from the account of the encoder's records. -/
theorem encoderEmitsOnlyTheseRecords : Obligations.EncoderEmitsOnlyTheseRecords := fun S =>
  ⟨rfl, rcRecords_output S, fun _ hi => isEncoderRecord_of_mem hi,
    fun _ hi _ hh => (isEncoderRecord_of_mem hi).header_notMem hh,
    fun _ lits _ _ heq hshort => (mayFollow_of_rcRecords_eq heq).1 lits rfl hshort,
    fun _ l₁ l₂ val _ heq => (mayFollow_of_rcRecords_eq heq).2 l₁ l₂ val rfl rfl⟩

theorem rcRecords_areRecords (S : List Byte) : AreRecords (rcRecords S) := by
  intro i hi
  rcases isEncoderRecord_of_mem hi with ⟨len, val, rfl, -, -⟩ | ⟨lits, rfl, -, hle⟩
  · exact ⟨rfl, rfl⟩
  · exact ⟨rfl, decide_eq_true hle⟩

theorem rcDec_rcEnc (S : List Byte) : rcDec (rcEnc S) = .ok S :=
  (decoderAcceptsExactlyRecordStreams _ _).mpr
    ⟨rcRecords S, rcRecords_areRecords S, rfl, (rcRecords_output S).symm⟩

/-! ### The size of the encoder's output (42_rc.md R188) -/

@[simp] theorem encode_rep_length (len : BitVec 7) (val : Byte) : (encode (.rep len val)).length = 2 :=
  Laws.EncodedLength.rep len val

@[simp] theorem encode_raw_length (lits : List Byte) : (encode (.raw lits)).length = 1 + lits.length :=
  Laws.EncodedLength.raw lits

/-- Records that follow one another as the encoder's do take at most `n + n / 127 + 1` bytes for `n` values, and one
byte less where the first is a repeat record: each raw record costs one byte more than its values, and pays for it with
127 values or with the repeat record after it. -/
theorem encoded_length_le {recs : List Instr} (hrecs : ∀ i ∈ recs, IsEncoderRecord i)
    (hchain : recs.IsChain MayFollow) :
    (recs.flatMap encode).length ≤
        (recs.flatMap recordOutput).length + (recs.flatMap recordOutput).length / 127 + 1 ∧
      ∀ len val, recs.head? = some (.rep len val) →
        (recs.flatMap encode).length ≤
          (recs.flatMap recordOutput).length + (recs.flatMap recordOutput).length / 127 := by
  induction recs with
  | nil => exact ⟨by simp, nofun⟩
  | cons i recs ih =>
    obtain ⟨hi, hrecs⟩ := List.forall_mem_cons.mp hrecs
    obtain ⟨hfollow, hchain⟩ := List.isChain_cons.mp hchain
    obtain ⟨ihle, ihrep⟩ := ih hrecs hchain
    rcases hi with ⟨len, val, rfl, hlen, -⟩ | ⟨lits, rfl, -, hle⟩
    · simp only [List.flatMap_cons, List.length_append, encode_rep_length, recordOutput,
        List.length_replicate]
      exact ⟨by omega, fun _ _ _ => by omega⟩
    · simp only [List.flatMap_cons, List.length_append, encode_raw_length, recordOutput]
      refine ⟨?_, nofun⟩
      by_cases hfull : lits.length = 127
      · omega
      · cases recs with
        | nil => simp [Nat.add_comm]
        | cons j recs =>
          obtain ⟨len, val, rfl⟩ := (hfollow j rfl).1 lits rfl (by omega)
          have := ihrep len val rfl
          omega

theorem rcEnc_length_le (S : List Byte) : (rcEnc S).length ≤ S.length + S.length / 127 + 1 := by
  obtain ⟨hout, hrecs, hchain⟩ := rcRecords_spec S
  simpa only [rcEnc, hout] using (encoded_length_le hrecs hchain).1

theorem rcEnc_eq_nil_iff {S : List Byte} : rcEnc S = [] ↔ S = [] := by
  constructor
  · intro h
    have hdec := rcDec_rcEnc S
    rw [h] at hdec
    cases hdec
    rfl
  · rintro rfl
    rfl

/-- Settles O50: the bound for the encoder's records; and what decodes to nothing is the encoding of nothing. -/
theorem encoderOutputSize : Obligations.EncoderOutputSize := fun S =>
  ⟨rcEnc_length_le S, by simp only [List.length_eq_zero_iff, rcEnc_eq_nil_iff]⟩

/-! ### The decoder on any stream (42_rc.md R192, R194) -/

theorem headerIsRepeat_iff {h : Byte} : headerIsRepeat h = true ↔ 128 ≤ h.toNat := by
  revert h
  decide

/-- The decoder rejects exactly the bytes that end inside a record. -/
theorem exists_decodeRecord_error_iff {h : Byte} {tail : List Byte} :
    (∃ r, decodeRecord (h :: tail) = .error r) ↔ EndsMidRecord h tail := by
  cases h7 : headerIsRepeat h with
  | true =>
    have hh := headerIsRepeat_iff.mp h7
    cases tail with
    | nil => exact iff_of_true ⟨.missingValueByte, by simp [decodeRecord, h7]⟩ (.inl ⟨hh, rfl⟩)
    | cons v tail => simp [decodeRecord, h7, EndsMidRecord, hh]
  | false =>
    have hh : ¬ 128 ≤ h.toNat := by simp [← headerIsRepeat_iff, h7]
    have hlen := headerLen_of_raw h h7
    by_cases hshort : tail.length < h.toNat
    · exact iff_of_true ⟨.missingLiterals, by simp [decodeRecord, h7, hlen, hshort]⟩ (.inr ⟨by omega, hshort⟩)
    · simp [decodeRecord, h7, hlen, hshort, EndsMidRecord, hh]

/-- Every stream is a sequence of records, and after it nothing or bytes that end inside a record. -/
theorem exists_records (B : List Byte) :
    ∃ recs rest, AreRecords recs ∧ B = recs.flatMap encode ++ rest ∧
      (rest = [] ∨ ∃ h tail, rest = h :: tail ∧ EndsMidRecord h tail) := by
  induction hn : B.length using Nat.strong_induction_on generalizing B with
  | _ n ih =>
    cases B with
    | nil => exact ⟨[], [], AreRecords.nil, rfl, .inl rfl⟩
    | cons b bs =>
      cases hd : decodeRecord (b :: bs) with
      | error r =>
        have hmid : EndsMidRecord b bs := exists_decodeRecord_error_iff.mp ⟨r, hd⟩
        exact ⟨[], b :: bs, AreRecords.nil, rfl, .inr ⟨b, bs, rfl, hmid⟩⟩
      | ok p =>
        obtain ⟨i, after⟩ := p
        obtain ⟨hwf, hsp, henc⟩ := decodeRecord_eq_ok_iff (hasFramer := true).mp hd
        obtain ⟨recs, rest, hrecs, rfl, hrest⟩ := ih after.length (hn ▸ decodeRecord_ok_length hd) after rfl
        exact ⟨i :: recs, rest, areRecords_cons.mpr ⟨⟨hsp, hwf⟩, hrecs⟩, by simpa using henc.symm, hrest⟩

section Scan

variable {cap : Option Nat} {recs : List Instr} {nmax : Nat}

/-- A scan over records whose outputs fit, to the end of the stream. -/
theorem rcScanFrom_complete (hrecs : AreRecords recs)
    (hcap : overCapacity cap 0 (recs.flatMap recordOutput).length = false) :
    rcScanFrom cap (recs.flatMap encode).length (recs.flatMap encode) [] = .ok (recs.flatMap recordOutput) := by
  simpa using rcScanFrom_records hrecs [] [] le_rfl hcap

/-- A scan over records whose outputs fit, and then inside a record. -/
theorem rcScanFrom_midRecord (hrecs : AreRecords recs)
    (hcap : overCapacity cap 0 (recs.flatMap recordOutput).length = false) {h : Byte} {tail : List Byte}
    (hmid : EndsMidRecord h tail) :
    rcScanFrom cap (recs.flatMap encode ++ h :: tail).length (recs.flatMap encode ++ h :: tail) [] =
      .error .truncatedData := by
  obtain ⟨r, hr⟩ := exists_decodeRecord_error_iff.mpr hmid
  rw [rcScanFrom_records hrecs (h :: tail) [] le_rfl hcap]
  exact rcScanFrom_truncated hr

/-- A scan over records whose outputs do not fit, whatever follows. -/
theorem rcScanFrom_overflow (hrecs : AreRecords recs) (B out : List Byte) {fuel : Nat}
    (hfuel : (recs.flatMap encode ++ B).length ≤ fuel) (hout : out.length ≤ nmax)
    (hcap : nmax < out.length + (recs.flatMap recordOutput).length) :
    rcScanFrom (some nmax) fuel (recs.flatMap encode ++ B) out = .error .capacity := by
  induction recs generalizing out fuel with
  | nil => exact absurd hcap (by simpa using hout)
  | cons i recs ih =>
    obtain ⟨hi, hrecs⟩ := areRecords_cons.mp hrecs
    obtain ⟨b, bs, hB, hd⟩ := exists_cons_of_record hi (recs.flatMap encode ++ B)
    have happ : (i :: recs).flatMap encode ++ B = b :: bs := by simpa using hB
    have hlen := decodeRecord_ok_length hd
    rw [happ] at hfuel ⊢
    cases fuel with
    | zero => cases hfuel
    | succ fuel =>
      rw [rcScanFrom_record hd]
      split
      · rfl
      · next hfits =>
        simp only [overCapacity, decide_eq_true_eq] at hfits
        simp only [List.flatMap_cons, List.length_append] at hcap
        exact ih hrecs _ (Nat.le_of_lt_succ (Nat.lt_of_lt_of_le hlen hfuel)) (by rw [List.length_append]; omega)
          (by rw [List.length_append]; omega)

/-- Settles O53: the three scans over a sequence of records, each started with no output. -/
theorem firstFailingRecordDecides : Obligations.FirstFailingRecordDecides := by
  intro nmax recs hrecs
  refine ⟨fun hover B => rcScanFrom_overflow hrecs B [] le_rfl nmax.zero_le (by simpa using hover), fun hfits => ?_⟩
  have hcap : overCapacity (some nmax) 0 (recs.flatMap recordOutput).length = false := by
    simpa [overCapacity] using hfits
  exact ⟨rcScanFrom_complete hrecs hcap, fun h tail hmid => rcScanFrom_midRecord hrecs hcap hmid⟩

/-- Settles O52: any stream is complete records, which decode, or is complete records and then ends inside a record. -/
theorem truncatedDataExactlyMidRecord : Obligations.TruncatedDataExactlyMidRecord := by
  intro B e
  constructor
  · intro herr
    obtain ⟨recs, rest, hrecs, rfl, rfl | ⟨h, tail, rfl, hmid⟩⟩ := exists_records B
    · rw [List.append_nil, rcDec, rcScanFrom_complete hrecs rfl] at herr
      cases herr
    · rw [rcDec, rcScanFrom_midRecord hrecs rfl hmid] at herr
      cases herr
      exact ⟨rfl, recs, h, tail, hrecs, rfl, hmid⟩
  · rintro ⟨rfl, recs, h, tail, hrecs, rfl, hmid⟩
    exact rcScanFrom_midRecord hrecs rfl hmid

/-- With a capacity the decoder succeeds where it does without one and the output fits. -/
theorem rcDecScan_eq_ok_iff {B Y : List Byte} : rcDecScan nmax B = .ok Y ↔ rcDec B = .ok Y ∧ Y.length ≤ nmax := by
  constructor
  · intro h
    obtain ⟨recs, rest, hrecs, rfl, hrest⟩ := exists_records B
    obtain ⟨hover, hfits⟩ := firstFailingRecordDecides nmax recs hrecs
    by_cases hlen : (recs.flatMap recordOutput).length ≤ nmax
    · rcases hrest with rfl | ⟨b, tail, rfl, hmid⟩
      · rw [List.append_nil, (hfits hlen).1] at h
        cases h
        exact ⟨by rw [List.append_nil]; exact rcScanFrom_complete hrecs rfl, hlen⟩
      · rw [(hfits hlen).2 b tail hmid] at h
        cases h
    · rw [hover (by omega) rest] at h
      cases h
  · rintro ⟨h, hlen⟩
    obtain ⟨recs, hrecs, rfl, rfl⟩ := (decoderAcceptsExactlyRecordStreams B Y).mp h
    exact ((firstFailingRecordDecides nmax recs hrecs).2 hlen).1

end Scan

/-! ### The size of the decoder's output (42_rc.md R197) -/

/-- A record of `m` bytes stands for at most `127 * floor(m / 2)` values. -/
theorem recordOutput_length_le {i : Instr} (hi : i.space = .record ∧ i.wf true = true) :
    (recordOutput i).length ≤ 127 * ((encode i).length / 2) := by
  obtain ⟨hsp, hwf⟩ := hi
  cases i with
  | rep len val =>
    rw [encode_rep_length, recordOutput, List.length_replicate]
    exact Nat.le_of_lt_succ len.isLt
  | raw lits =>
    have hle : lits.length ≤ 127 := of_decide_eq_true hwf
    rw [encode_raw_length, recordOutput]
    omega
  | _ => cases hsp

theorem records_output_length_le {recs : List Instr} (hrecs : AreRecords recs) :
    (recs.flatMap recordOutput).length ≤ 127 * ((recs.flatMap encode).length / 2) := by
  induction recs with
  | nil => simp
  | cons i recs ih =>
    obtain ⟨hi, hrecs⟩ := areRecords_cons.mp hrecs
    have hhead := recordOutput_length_le hi
    have htail := ih hrecs
    simp only [List.flatMap_cons, List.length_append]
    omega

theorem areRecords_replicate_rep (k : Nat) (len : BitVec 7) (v : Byte) : AreRecords (List.replicate k (.rep len v)) :=
  fun _ hi => List.eq_of_mem_replicate hi ▸ ⟨rfl, rfl⟩

theorem flatMap_encode_replicate_rep (k : Nat) (v : Byte) :
    (List.replicate k (.rep 127#7 v)).flatMap encode = (List.replicate k [0xFF#8, v]).flatten := by
  rw [List.flatMap_def, List.map_replicate]
  rfl

theorem flatMap_recordOutput_replicate_rep (k : Nat) (v : Byte) :
    (List.replicate k (.rep 127#7 v)).flatMap recordOutput = List.replicate (127 * k) v := by
  rw [List.flatMap_def, List.map_replicate, recordOutput, List.flatten_replicate_replicate, Nat.mul_comm]
  rfl

/-- Settles O55: the bound of each record, summed; and `k` repeat records of length 127. -/
theorem decoderOutputSize : Obligations.DecoderOutputSize := by
  refine ⟨fun B Y h => ?_, fun k v => ?_⟩
  · obtain ⟨recs, hrecs, rfl, rfl⟩ := (decoderAcceptsExactlyRecordStreams B Y).mp h
    exact records_output_length_le hrecs
  · have hrecs := areRecords_replicate_rep k 127#7 v
    have hout := flatMap_recordOutput_replicate_rep k v
    rw [← flatMap_encode_replicate_rep]
    refine ⟨hout ▸ rcScanFrom_complete hrecs rfl, fun nmax hk => ?_⟩
    have hover : nmax < ((List.replicate k (.rep 127#7 v)).flatMap recordOutput).length := by
      rw [hout, List.length_replicate]
      omega
    simpa using (firstFailingRecordDecides nmax _ hrecs).1 hover []

/-! ### The commands (42_rc.md R184, R193) -/

section Commands

variable {s : State} {B S Y : List Byte}

/-- A result that fits, or an error, concludes a command as the stage function says. -/
theorem State.conclude_concludes {r : Except ErrCode (List Byte)} (hr : ∀ Y, r = .ok Y → Y.length ≤ s.cfg.nmax) :
    Concludes s (s.nextDraw.conclude r) r := by
  cases r with
  | ok Y => exact ⟨(State.deliver_delivered (s := s.nextDraw) (hr Y rfl)).of_nextDraw, s.nextDraw.conclude_idx (.ok Y)⟩
  | error e => exact (s.nextDraw.raise_entered e).of_nextDraw

theorem exec_rcEnc_eq (hs : s.Accepting) (hn : s.ilen.toNat ≤ s.cfg.nmax) :
    exec .rcEnc s = .next (s.nextDraw.deliver (rcEnc s.input)) := by
  rw [exec_rcEnc, whenAccepting_of_accepting _ hs, State.withInput_of_fits _ hn]

theorem exec_rcDec_eq (hs : s.Accepting) (hn : s.ilen.toNat ≤ s.cfg.nmax) :
    exec .rcDec s = .next (s.nextDraw.conclude (rcDecScan s.cfg.nmax s.input)) := by
  rw [exec_rcDec, whenAccepting_of_accepting _ hs, State.withInput_of_fits _ hn, State.nextDraw_cfg]

theorem exec_rcEnc_delivers (hs : s.Accepting) (hin : s.InputIs S) (hS : S.length ≤ s.cfg.nmax)
    (hfits : (rcEnc S).length ≤ s.cfg.nmax) :
    ∃ t, exec .rcEnc s = .next t ∧ Delivered s t (rcEnc S) ∧ t.idx = s.idx := by
  rw [exec_rcEnc]
  exact transform_delivers hs (hin.1 ▸ hS) _ (by rw [hin.input_eq]) hfits

theorem exec_rcDec_delivers (hs : s.Accepting) (hin : s.InputIs B) (hB : B.length ≤ s.cfg.nmax)
    (hY : rcDecScan s.cfg.nmax B = .ok Y) : ∃ t, exec .rcDec s = .next t ∧ Delivered s t Y ∧ t.idx = s.idx := by
  rw [exec_rcDec]
  exact transform_delivers hs (hin.1 ▸ hB) _ (by simp [hin.input_eq, hY]) (rcDecScan_eq_ok_iff.mp hY).2

/-- Settles O26: the delivery of `RC.ENC`, which fails only on a length the bound of R188 allows, or its input is too
long. -/
theorem rcEncCommand : Obligations.RcEncCommand := by
  intro s hs
  refine ⟨decodeCommand_eq_iff.mpr ⟨rfl, rfl, rfl⟩, fun hn => transform_overflow hs hn _, fun hn => ?_⟩
  refine ⟨s.input, _, s.input_agrees, exec_rcEnc_eq hs hn, fun hfits => ?_, fun hover => ?_⟩
  · exact ⟨(State.deliver_delivered (s := s.nextDraw) hfits).of_nextDraw, by simp⟩
  · rw [State.deliver_of_overflow (by simpa using hover)]
    refine ⟨(s.nextDraw.raise_entered .capacity).of_nextDraw, ?_⟩
    have hbound := rcEnc_length_le s.input
    rw [s.input_length] at hbound
    omega

/-- Settles O27: the scan's conclusion, whose value fits, or the input is too long. -/
theorem rcDecCommand : Obligations.RcDecCommand := by
  intro s hs
  refine ⟨decodeCommand_eq_iff.mpr ⟨rfl, rfl, rfl⟩, fun hn => transform_overflow hs hn _, fun hn => ?_,
    fun B Y hin hB hY => exec_rcDec_delivers hs hin hB hY⟩
  exact ⟨s.input, _, s.input_agrees, exec_rcDec_eq hs hn,
    State.conclude_concludes fun Y hY => (rcDecScan_eq_ok_iff.mp hY).2⟩

/-- Settles O54: as functions, `rcDec_rcEnc`; as commands, each delivery is the next command's input. -/
theorem rcRoundTrip : Obligations.RcRoundTrip := by
  refine ⟨rcDec_rcEnc, fun s S hs hin hS hfits => ?_⟩
  obtain ⟨t₁, h₁, hd₁, -⟩ := exec_rcEnc_delivers hs hin hS hfits
  have hcfg : t₁.moveOutput.cfg = s.cfg := hd₁.frame.cfg
  obtain ⟨t₃, h₃, hd₃, -⟩ := exec_rcDec_delivers (.inr rfl) hd₁.moveOutput_inputIs (hcfg ▸ hfits)
    (rcDecScan_eq_ok_iff.mpr ⟨rcDec_rcEnc S, hcfg ▸ hS⟩)
  exact ⟨t₁, t₁.moveOutput, t₃, h₁, hd₁.exec_mov, h₃, hd₃.st, hd₃.olen, hd₃.obuf⟩

end Commands

end Sys2Proof.Machine

/-! SUPPORT. The statements on the Container Framer (43_container.md): which container `CtEnc` makes and how long it is,
what `CtDec` answers for each header, the round trip, and the commands `CT.ENC` and `CT.DEC`. -/

namespace Sys2Proof.Machine

variable {X Y C R payload : List Byte} {nmax bias : Nat} {h : Word32}

/-! ### The two modes of the encoder (43_container.md R211, R212) -/

/-- The input is long enough for compressed mode, and its container is shorter in it (43_container.md R211). -/
def Compresses (X : List Byte) : Prop :=
  Config.storeThreshold ≤ X.length ∧ (pipelineEnc X).1.length + Config.headerBytes < X.length

theorem ctEnc_of_compresses (hX : Compresses X) :
    ctEnc bias X = be32 (BitVec.ofNat 32 ((pipelineEnc X).2 + bias)) ++ (pipelineEnc X).1 := by
  rw [ctEnc, if_neg hX.1.not_gt, if_neg hX.2.not_ge]

theorem ctEnc_of_not_compresses (hX : ¬ Compresses X) : ctEnc bias X = storeContainer X := by
  rw [ctEnc]
  split
  · rfl
  · next hlen => exact if_pos (not_lt.mp fun hshort => hX ⟨not_lt.mp hlen, hshort⟩)

@[simp] theorem storeContainer_length (X : List Byte) : (storeContainer X).length = X.length + 4 := by
  rw [storeContainer, List.length_append, Laws.EncodedLength.hdrStore, Nat.add_comm]

theorem ctEnc_length_of_compresses (hX : Compresses X) :
    (ctEnc bias X).length = (pipelineEnc X).1.length + Config.headerBytes := by
  rw [ctEnc_of_compresses hX, List.length_append, Nat.add_comm]
  rfl

/-- Settles O56: the length in each of the two modes. -/
theorem containerSize : Obligations.ContainerSize := by
  intro bias X
  by_cases hX : Compresses X
  · have hlen := ctEnc_length_of_compresses (bias := bias) hX
    have hlt : (ctEnc bias X).length < X.length := hlen ▸ hX.2
    exact ⟨by omega, .inr ⟨hX.1, hlen, hlt⟩⟩
  · rw [ctEnc_of_not_compresses hX]
    exact ⟨(storeContainer_length X).le, .inl rfl⟩

/-! ### The decoder (43_container.md R219 to R221) -/

theorem ctDec_short (hC : C.length < 4) : ctDec nmax bias C = .error .truncatedData := by
  unfold ctDec
  split
  · simp only [List.length_cons] at hC
    omega
  · rfl

theorem ctDec_storeContainer : ctDec nmax bias (storeContainer X) = .ok X := rfl

/-- In compressed mode the RC step comes first, and what it answers goes through the inverses of RRT and BST. -/
theorem ctDec_compressed (hh : h ≠ 0) :
    ctDec nmax bias (be32 h ++ payload) =
      (rcDecScan nmax payload).bind fun R => unrank R (h.toNat - bias) := by
  have hpos : h.toNat ≠ 0 := fun h0 => hh (BitVec.eq_of_toNat_eq h0)
  simp only [be32, List.cons_append, List.nil_append, ctDec, unbe32_be32, if_neg hpos]
  cases rcDecScan nmax payload <;> rfl

theorem unrank_of_rrtInvBytes (hY : rrtInvBytes R = .ok Y) (i : Nat) : unrank R i = bstInv Y i := by
  rw [unrank, hY]

/-- The index check of `unrank` is that of `BstInv`, against the length of the rank stream. -/
theorem unrank_of_out_of_range {i : Nat} (hi : (R = [] ∧ i ≠ 0) ∨ (R ≠ [] ∧ R.length ≤ i)) :
    unrank R i = .error .invalidIndex := by
  obtain ⟨T, hT, hlen⟩ := rrtInvBytes_ok R
  rw [unrank_of_rrtInvBytes hT]
  exact bstInv_of_out_of_range (by simpa only [← List.length_eq_zero_iff, hlen, ne_eq] using hi)

theorem unrank_of_in_range {i : Nat} (hi : (R = [] ∧ i = 0) ∨ i < R.length) :
    ∃ T X, rrtInvBytes R = .ok T ∧ bstInv T i = .ok X ∧ unrank R i = .ok X ∧ X.length = R.length := by
  obtain ⟨T, hT, hlen⟩ := rrtInvBytes_ok R
  obtain ⟨X, hX, hXlen⟩ :=
    bstInv_of_in_range (T := T) (idx0 := i) (by simpa only [← List.length_eq_zero_iff, hlen] using hi)
  exact ⟨T, X, hT, hX, (unrank_of_rrtInvBytes hT i).trans hX, hXlen.trans hlen⟩

/-- Settles O59: the short header, and in compressed mode the RC step before the index check. -/
theorem containerErrorsInOrder : Obligations.ContainerErrorsInOrder := by
  intro nmax bias
  refine ⟨fun C => ctDec_short, fun h payload hh => ?_⟩
  rw [ctDec_compressed hh]
  refine ⟨fun e he => by rw [he]; rfl, fun R hR => ?_⟩
  rw [hR]
  exact ⟨unrank_of_out_of_range, unrank_of_in_range⟩

/-! ### Round trip (43_container.md R223) -/

/-- The RC step of the decoder on a payload of the encoder: the ranks, which are as many as the data. -/
theorem rcDecScan_pipelineEnc (hX : X.length ≤ nmax) :
    rcDecScan nmax (pipelineEnc X).1 = .ok (rrtFwd (bstFwd X).1) :=
  rcDecScan_eq_ok_iff.mpr ⟨rcDec_rcEnc _, by simpa using hX⟩

theorem unrank_pipelineEnc (X : List Byte) : unrank (rrtFwd (bstFwd X).1) (pipelineEnc X).2 = .ok X :=
  (unrank_of_rrtInvBytes (rrtInvBytes_eq_ok_iff.mpr rfl) _).trans (bstInv_bstFwd X)

/-- Compressed mode round-trips wherever the header is not 0 and holds the biased index. -/
theorem ctDec_ctEnc_of_compresses (hX : Compresses X) (hn : X.length ≤ nmax) (hpos : (pipelineEnc X).2 + bias ≠ 0)
    (hlt : (pipelineEnc X).2 + bias < 2 ^ 32) : ctDec nmax bias (ctEnc bias X) = .ok X := by
  have hh : (BitVec.ofNat 32 ((pipelineEnc X).2 + bias)).toNat = (pipelineEnc X).2 + bias := by
    rw [BitVec.toNat_ofNat, Nat.mod_eq_of_lt hlt]
  have hne : BitVec.ofNat 32 ((pipelineEnc X).2 + bias) ≠ 0 := fun h0 => hpos (by rw [← hh, h0]; rfl)
  rw [ctEnc_of_compresses hX, ctDec_compressed hne, rcDecScan_pipelineEnc hn, hh, Nat.add_sub_cancel]
  exact unrank_pipelineEnc X

/-- Without the bias a primary index of 0 makes the header that of store mode (30_encoding.md R115). -/
theorem ctEnc_zero_bias_of_idx_zero (hX : Compresses X) (hidx : (pipelineEnc X).2 = 0) :
    ctEnc 0 X = storeContainer (pipelineEnc X).1 := by
  rw [ctEnc_of_compresses hX, hidx]
  rfl

/-- Settles O57: with bias 1 each mode round-trips, as the index is below the length; with bias 0 and index 0 the
decoder reads store mode and answers the payload, which is shorter than the input. -/
theorem containerRoundTrip : Obligations.ContainerRoundTrip := by
  refine ⟨fun nmax X hn hnmax => ?_, fun nmax X h512 hshort hidx => ?_⟩
  · by_cases hX : Compresses X
    · have hne : X ≠ [] := by rintro rfl; exact absurd hX.1 (by decide)
      have hidx : (pipelineEnc X).2 < X.length := bstFwd_idx_lt hne
      exact ctDec_ctEnc_of_compresses hX hn (Nat.succ_ne_zero _) (by omega)
    · rw [ctEnc_of_not_compresses hX, ctDec_storeContainer]
  · rw [ctEnc_zero_bias_of_idx_zero ⟨h512, hshort⟩ hidx, ctDec_storeContainer]
    refine ⟨rfl, fun heq => ?_⟩
    have hlen : (pipelineEnc X).1.length = X.length := congrArg List.length (Except.ok.inj heq)
    have : (pipelineEnc X).1.length + 4 < X.length := hshort
    omega

/-! ### What the decoder answers fits (43_container.md R222) -/

theorem unrank_ok_length {i : Nat} (hX : unrank R i = .ok X) : X.length = R.length := by
  obtain ⟨T, hT, hlen⟩ := rrtInvBytes_ok R
  rw [unrank_of_rrtInvBytes hT] at hX
  exact (bstInv_ok_length hX).trans hlen

theorem ctDec_ok_length (hC : C.length ≤ nmax) (hX : ctDec nmax bias C = .ok X) : X.length ≤ nmax := by
  unfold ctDec at hX
  split at hX
  · split at hX
    · cases hX
      simp only [List.length_cons] at hC
      omega
    · split at hX
      · cases hX
      · next hR => exact unrank_ok_length hX ▸ (rcDecScan_eq_ok_iff.mp hR).2
  · cases hX

/-! ### The commands (43_container.md R214, R222) -/

section Commands

variable {s : State}

/-- With the framer its commands are behind the gate of the status machine only. -/
theorem whenAccepting_withFramer (run : State → State) (hf : s.cfg.hasFramer = true) :
    whenAccepting (State.withFramer run) s = whenAccepting run s := by
  rw [whenAccepting, State.withFramer, if_pos hf]
  rfl

theorem hostAct_command (c : Byte) (hb : s.st ≠ .busy) :
    hostAct (.command c) s = exec (decodeCommand s.cfg.hasFramer c) s := by
  rw [hostAct, HostAction.blocked_of_ne hb, if_neg Bool.false_ne_true]

/-- A reserved word decodes to itself, and issued it enters `IllegalCommand` (30_encoding.md R101, 60_exceptions.md
R264). -/
theorem reserved_word_raises (hs : s.Accepting) {c : Byte} (hc : reservedCode s.cfg.hasFramer c = true) :
    decodeCommand s.cfg.hasFramer c = .reservedCmd c ∧
      ∃ t, hostAct (.command c) s = .next t ∧ ErrorEntered s t .illegalCommand := by
  have hdec := decodeCommand_of_reserved hc
  refine ⟨hdec, s.raise .illegalCommand, ?_, s.raise_entered .illegalCommand⟩
  rw [hostAct_command c hs.ne_busy, hdec, exec_reservedCmd, whenAccepting_of_accepting _ hs]

theorem exec_ctEnc_of_framer (hf : s.cfg.hasFramer = true) :
    exec .ctEnc s = whenAccepting (State.withInput fun X s => s.deliver (ctEnc s.cfg.hdrBias.val X)) s := by
  rw [exec_ctEnc, whenAccepting_withFramer _ hf]

theorem exec_ctDec_of_framer (hf : s.cfg.hasFramer = true) :
    exec .ctDec s =
      whenAccepting (State.withInput fun C s => s.conclude (ctDec s.cfg.nmax s.cfg.hdrBias.val C)) s := by
  rw [exec_ctDec, whenAccepting_withFramer _ hf]

/-- `CT.ENC` on an input that fits. -/
theorem exec_ctEnc_eq (hs : s.Accepting) (hf : s.cfg.hasFramer = true) (hn : s.ilen.toNat ≤ s.cfg.nmax) :
    exec .ctEnc s = .next (s.nextDraw.deliver (ctEnc s.cfg.hdrBias.val s.input)) := by
  rw [exec_ctEnc_of_framer hf, whenAccepting_of_accepting _ hs, State.withInput_of_fits _ hn, State.nextDraw_cfg]

/-- `CT.DEC` on an input that fits. -/
theorem exec_ctDec_eq (hs : s.Accepting) (hf : s.cfg.hasFramer = true) (hn : s.ilen.toNat ≤ s.cfg.nmax) :
    exec .ctDec s = .next (s.nextDraw.conclude (ctDec s.cfg.nmax s.cfg.hdrBias.val s.input)) := by
  rw [exec_ctDec_of_framer hf, whenAccepting_of_accepting _ hs, State.withInput_of_fits _ hn, State.nextDraw_cfg]

theorem exec_ctDec_delivers (hs : s.Accepting) (hf : s.cfg.hasFramer = true) (hin : s.InputIs C)
    (hC : C.length ≤ s.cfg.nmax) (hX : ctDec s.cfg.nmax s.cfg.hdrBias.val C = .ok X) :
    ∃ t, exec .ctDec s = .next t ∧ Delivered s t X ∧ t.idx = s.idx := by
  rw [exec_ctDec_of_framer hf]
  exact transform_delivers hs (hin.1 ▸ hC) _ (by simp [hin.input_eq, hX]) (ctDec_ok_length hC hX)

/-- The only container that does not fit, of an input that does, is one of store mode. -/
theorem not_compresses_of_overflow (hn : X.length ≤ nmax) (hover : nmax < (ctEnc bias X).length) : ¬ Compresses X := by
  intro hX
  have hlt : (ctEnc bias X).length < X.length := ctEnc_length_of_compresses hX ▸ hX.2
  omega

/-- Settles O28: the word is reserved, or the container is delivered, or it or the input does not fit. -/
theorem ctEncCommand : Obligations.CtEncCommand := by
  intro s hs
  refine ⟨fun hf => reserved_word_raises hs (by rw [hf]; rfl), fun hf => ?_⟩
  refine ⟨decodeCommand_eq_iff.mpr ⟨hf, rfl, rfl⟩, fun hn => ?_, fun hn => ?_⟩
  · rw [exec_ctEnc_of_framer hf]
    exact transform_overflow hs hn _
  refine ⟨s.input, _, s.input_agrees, exec_ctEnc_eq hs hf hn, fun hfits => ?_, fun hover => ?_⟩
  · exact ⟨(State.deliver_delivered (s := s.nextDraw) hfits).of_nextDraw, by simp⟩
  · have hstore := ctEnc_of_not_compresses (bias := s.cfg.hdrBias.val)
      (not_compresses_of_overflow (by simpa using hn) hover)
    rw [State.deliver_of_overflow (by simpa using hover)]
    rw [hstore, storeContainer_length, s.input_length] at hover
    exact ⟨(s.nextDraw.raise_entered .capacity).of_nextDraw, hstore, hover⟩

/-- Settles O29: the word is reserved, or `CtDec` concludes the command, and its value fits, or the input is too long. -/
theorem ctDecCommand : Obligations.CtDecCommand := by
  intro s hs
  refine ⟨fun hf => reserved_word_raises hs (by rw [hf]; rfl), fun hf => ?_⟩
  refine ⟨decodeCommand_eq_iff.mpr ⟨hf, rfl, rfl⟩, fun hn => ?_, fun hn => ?_,
    fun C X hin hC hX => exec_ctDec_delivers hs hf hin hC hX⟩
  · rw [exec_ctDec_of_framer hf]
    exact transform_overflow hs hn _
  · exact ⟨s.input, _, s.input_agrees, exec_ctDec_eq hs hf hn,
      State.conclude_concludes fun X hX => ctDec_ok_length (by simpa using hn) hX⟩

/-- Settles O58: the payload of a store-mode container is delivered, and it stands four bytes into `IBUF`. -/
theorem storeModeReturnsThePayload : Obligations.StoreModeReturnsThePayload := by
  intro s payload hs hf hin
  refine ⟨fun hn => ?_, fun hn => ?_⟩
  · have hlen : s.ilen.toNat = payload.length + 4 := hin.1
    obtain ⟨t, ht, hd, hidx⟩ := exec_ctDec_delivers hs hf hin (hin.1 ▸ hn) ctDec_storeContainer
    refine ⟨t, ht, hd, by rw [hd.olen, hlen, Nat.add_sub_cancel], fun i hi => ?_, hidx⟩
    rw [hd.olen] at hi
    rw [hd.obuf, hin.2 (i + 4) (Nat.add_lt_add_right hi 4)]
    rfl
  · rw [exec_ctDec_of_framer hf]
    exact transform_overflow hs hn _

end Commands

end Sys2Proof.Machine

/-! SUPPORT. The statements on the control commands (44_control.md): what `IBUF` reads as after `MOV`, and that `ERROR`
stays for every command but `CLR`. -/

namespace Sys2Proof.Machine

variable {s : State}

/-! ### `MOV` (44_control.md R244) -/

/-- Below `OLEN` the input buffer holds the output stream. -/
theorem read_moveOutput_ibuf_of_lt {j : Nat} (hj : j < s.olen.toNat) :
    Memory.read s.moveOutput.ibuf j = s.output[j]? := by
  rw [State.moveOutput_ibuf, Memory.read_writeBytes, if_pos ⟨j.zero_le, by simpa using hj⟩, Nat.sub_zero]

/-- At and above `OLEN` the input buffer is as it was. -/
theorem read_moveOutput_ibuf_of_le {j : Nat} (hj : s.olen.toNat ≤ j) :
    Memory.read s.moveOutput.ibuf j = Memory.read s.ibuf j := by
  rw [State.moveOutput_ibuf, Memory.read_writeBytes, if_neg (by simpa using hj)]

/-- Settles O21: behind the gate `MOV` is `moveOutput`, which writes the output stream over `IBUF[0..OLEN)`. -/
theorem movCopiesOutputToInput : Obligations.MovCopiesOutputToInput := by
  intro s
  refine ⟨decodeCommand_eq_iff.mpr ⟨rfl, rfl, rfl⟩, fun he => ?_, fun hs => ?_⟩
  · rw [exec_mov, whenAccepting_of_error _ he]
  · exact ⟨s.output, s.moveOutput, s.output_agrees, by rw [exec_mov, whenAccepting_of_accepting _ hs],
      fun _ => read_moveOutput_ibuf_of_lt, fun _ => read_moveOutput_ibuf_of_le,
      rfl, rfl, rfl, rfl, rfl, rfl, rfl, rfl, rfl, rfl⟩

/-! ### `NOP` and `CLR` (44_control.md R241, R242) -/

theorem exec_nop_of_ne_busy (hb : s.st ≠ .busy) : exec .nop s = .next s := by
  rw [exec_nop, unlessBusy_of_ne _ hb]

theorem exec_clr_of_ne_busy (hb : s.st ≠ .busy) : exec .clr s = .next s.clearError := by
  rw [exec_clr, unlessBusy_of_ne _ hb]

/-- In `ERROR` every command but `CLR` is ignored: `NOP` does nothing anyway, and the gate keeps out the others
(60_exceptions.md R270). -/
theorem exec_ignored_of_error {i : Instr} (he : s.st = .error) (hi : i.space = .command) (hc : i ≠ .clr) :
    exec i s = .next s := by
  by_cases hn : i = .nop
  · rw [hn, exec_nop_of_ne_busy (by simp [he])]
  · rw [exec_gated s hi hn hc, whenAccepting_of_error _ he]

/-- Settles O19: `NOP` is behind the gate that only `BUSY` closes, and it runs the identity. -/
theorem nopChangesNothing : Obligations.NopChangesNothing := fun _ hb =>
  ⟨decodeCommand_eq_iff.mpr ⟨rfl, rfl, rfl⟩, exec_nop_of_ne_busy hb⟩

/-- Settles O20: `CLR` answers `clearError`, and in `ERROR` the other commands are ignored. -/
theorem clrClearsStatusAndErrorOnly : Obligations.ClrClearsStatusAndErrorOnly := fun s hb =>
  ⟨decodeCommand_eq_iff.mpr ⟨rfl, rfl, rfl⟩, ⟨s.clearError, exec_clr_of_ne_busy hb, rfl, rfl, rfl⟩,
    fun he _ hi hc => exec_ignored_of_error he hi hc⟩

end Sys2Proof.Machine

/-! SUPPORT. The statements on errors (60_exceptions.md): which words are reserved, that a command which ends in `ERROR`
ends in error entry, and what leaves `ERROR`. -/

namespace Sys2Proof.Machine

variable {s t : State}

/-! ### Reserved words (30_encoding.md R101, 60_exceptions.md R264) -/

/-- The nibbles of `reservedCode` as ranges of the whole word. -/
theorem reservedCode_iff {hasFramer : Bool} {c : Byte} :
    reservedCode hasFramer c = true ↔
      16 ≤ c.toNat ∨ (10 ≤ c.toNat ∧ c.toNat ≤ 14) ∨ (hasFramer = false ∧ (c.toNat = 7 ∨ c.toNat = 8)) := by
  cases hasFramer with
  | false => simp [reservedCode]; omega
  | true => simp [reservedCode]; omega

theorem decodeCommand_eq_reservedCmd_iff {hasFramer : Bool} {c : Byte} :
    decodeCommand hasFramer c = .reservedCmd c ↔ reservedCode hasFramer c = true :=
  ⟨fun h => (decodeCommand_eq_iff.mp h).1, decodeCommand_of_reserved⟩

/-- Settles O4: the decoder answers `reservedCmd` exactly on the reserved codes, and such a word raises its error when
it is issued, which is when it is executed. -/
theorem reservedWordsRaiseIllegalCommand : Obligations.ReservedWordsRaiseIllegalCommand := by
  intro s c
  refine ⟨reservedCode_iff.symm.trans decodeCommand_eq_reservedCmd_iff.symm, fun hdec hs => ?_⟩
  obtain ⟨-, t, hact, hentered⟩ := reserved_word_raises hs (decodeCommand_eq_reservedCmd_iff.mp hdec)
  have hexec : exec (.reservedCmd c) s = .next t := by rw [← hdec, ← hostAct_command c hs.ne_busy, hact]
  exact ⟨t, hact, hexec, hentered, by rw [hentered.err]; rfl⟩

/-! ### Error entry (60_exceptions.md R266) -/

theorem ilen_le_of_turnedAway {i : Instr} {cfg : Config} {ilen : Word32} (h : turnedAway i cfg ilen = none) :
    ilen.toNat ≤ cfg.nmax := by
  unfold turnedAway at h
  split at h
  · cases h
  · split at h
    · cases h
    · next hn => exact Nat.le_of_not_lt hn

/-- A command's end that is in `ERROR` is error entry, also where the result did not fit. -/
theorem State.conclude_eq_raise {r : Except ErrCode (List Byte)} (hr : ∀ e, r = .error e → e ≠ .none)
    (h : (s.conclude r).st = .error) : ∃ e, e ≠ .none ∧ s.conclude r = s.raise e := by
  cases r with
  | error e => exact ⟨e, hr e rfl, rfl⟩
  | ok Y =>
    by_cases hY : s.cfg.nmax < Y.length
    · exact ⟨.capacity, by decide, State.deliver_of_overflow hY⟩
    · have hdone : (s.deliver Y).st = .done := (State.deliver_delivered (Nat.le_of_not_lt hY)).st
      rw [State.conclude_ok, hdone] at h
      cases h

/-- The result of `BST.FWD` is as long as its input, so it always fits (log 14). -/
theorem State.finishTransform_bstFwd_st (hn : s.ilen.toNat ≤ s.cfg.nmax) : (s.finishTransform .bstFwd).st = .done :=
  (State.deliver_delivered (s := s.nextDraw) (Y := (bstFwd s.input).1) (by simpa using hn)).st

/-- A transform that ran and ended in `ERROR` is error entry after its draw. `BST.FWD`, which writes `IDX`, is none of
these: "no command that can fail writes them". -/
theorem State.finishTransform_eq_raise {i : Instr} (hn : s.ilen.toNat ≤ s.cfg.nmax)
    (h : (s.finishTransform i).st = .error) : ∃ e, e ≠ .none ∧ s.finishTransform i = s.nextDraw.raise e := by
  by_cases hi : i = .bstFwd
  · rw [hi, State.finishTransform_bstFwd_st hn] at h
    cases h
  · rw [s.finishTransform_of_ne hi] at h ⊢
    exact State.conclude_eq_raise (fun _ => stageResult_error) h

/-- A command in `IDLE` or `DONE` that ends in `ERROR` has raised an error, before or after it drew its input. -/
theorem exec_eq_raise {i : Instr} (hi : i.space = .command) (hs : s.Accepting) (h : exec i s = .next t)
    (he : t.st = .error) : ∃ e, e ≠ .none ∧ (t = s.raise e ∨ t = s.nextDraw.raise e) := by
  rcases exec_cases hi h with ⟨-, rfl, -⟩ | ⟨-, rfl, -⟩ | ⟨hn, hc, -, rfl⟩ | ⟨-, -, hse, -⟩
  · exact absurd he hs.ne_error
  · cases he
  · rcases gated_command_cases hi hn hc with htr | rfl | ⟨c, rfl⟩
    · rw [commandRun_transform htr] at he ⊢
      cases hta : turnedAway i s.cfg s.ilen with
      | some e => exact ⟨e, turnedAway_ne_none hta, .inl rfl⟩
      | none =>
        rw [hta] at he
        obtain ⟨e, hne, heq⟩ := State.finishTransform_eq_raise (ilen_le_of_turnedAway hta) he
        exact ⟨e, hne, .inr heq⟩
    · cases he
    · exact ⟨.illegalCommand, by decide, .inl rfl⟩
  · exact absurd hse hs.ne_error

/-- Settles O13: the command has raised an error, and the draw before it is no part of what error entry describes. -/
theorem everyErrorEntersTheSameWay : Obligations.EveryErrorEntersTheSameWay := by
  intro i s t hi hs h he
  obtain ⟨e, hne, rfl | rfl⟩ := exec_eq_raise hi hs h he
  · exact ⟨s.raise_entered e, hne⟩
  · exact ⟨(s.nextDraw.raise_entered e).of_nextDraw, hne⟩

/-! ### Leaving `ERROR` (60_exceptions.md R271) -/

/-- Reset has its effect in every status (70_reset_and_hazards.md R301). -/
theorem hostAct_reset (s : State) : hostAct .reset s = .next s.hardReset := by
  simp [hostAct, HostAction.blocked, HostAction.allowedWhileBusy]

@[simp] theorem hostWriteReg_err (r : WritableReg) (v : Word32) (s : State) : (hostWriteReg r v s).err = s.err := by
  cases r <;> rfl

theorem hostWriteIBuf_keeps_status {i : Nat} {b : Byte} (h : hostWriteIBuf i b s = .next t) :
    t.st = s.st ∧ t.err = s.err := by
  unfold hostWriteIBuf at h
  split at h <;> cases h
  exact ⟨rfl, rfl⟩

theorem hostReadBuf_keeps_status {m : Memory} {i : Nat} (h : hostReadBuf m i s = .next t) :
    t.st = s.st ∧ t.err = s.err := by
  unfold hostReadBuf at h
  split at h <;> cases h
  exact ⟨rfl, rfl⟩

/-- The host's accesses to buffers and registers leave `ST` and `ERR` alone: these are not writable registers. -/
theorem hostAct_keeps_status {a : HostAction} (hb : s.st ≠ .busy) (hc : ∀ c, a ≠ .command c) (hr : a ≠ .reset)
    (h : hostAct a s = .next t) : t.st = s.st ∧ t.err = s.err := by
  cases a with
  | writeIBuf i b => exact hostWriteIBuf_keeps_status (hostAct_writeIBuf b hb ▸ h)
  | readIBuf i => exact hostReadBuf_keeps_status (hostAct_readIBuf hb ▸ h)
  | readOBuf i => exact hostReadBuf_keeps_status (hostAct_readOBuf hb ▸ h)
  | writeReg r v =>
    rw [hostAct_writeReg r v hb] at h
    cases h
    exact ⟨hostWriteReg_st r v s, hostWriteReg_err r v s⟩
  | readReg r =>
    rw [hostAct_readReg r hb] at h
    cases h
    exact ⟨rfl, rfl⟩
  | command c => exact absurd rfl (hc c)
  | reset => exact absurd rfl hr

/-- All a host action can do in `ERROR`: a reset, a `CLR`, or what leaves the latched error in place. -/
theorem hostAct_of_error {a : HostAction} (he : s.st = .error) (h : hostAct a s = .next t) :
    (a = .reset ∧ t = s.hardReset) ∨
    (∃ c, a = .command c ∧ decodeCommand s.cfg.hasFramer c = .clr ∧ t = s.clearError) ∨
    (t.st = s.st ∧ t.err = s.err) := by
  have hb : s.st ≠ .busy := by simp [he]
  by_cases hr : a = .reset
  · rw [hr, hostAct_reset] at h
    cases h
    exact .inl ⟨hr, rfl⟩
  by_cases hc : ∃ c, a = .command c
  · obtain ⟨c, rfl⟩ := hc
    rw [hostAct_command c hb] at h
    by_cases hclr : decodeCommand s.cfg.hasFramer c = .clr
    · rw [hclr, exec_clr_of_ne_busy hb] at h
      cases h
      exact .inr (.inl ⟨c, rfl, hclr, rfl⟩)
    · rw [exec_ignored_of_error he (decodeCommand_space _ c) hclr] at h
      cases h
      exact .inr (.inr ⟨rfl, rfl⟩)
  · exact .inr (.inr (hostAct_keeps_status hb (not_exists.mp hc) hr h))

/-- Settles O12: a step from `ERROR` does nothing or is a host action, since the engine stands still. -/
theorem onlyClearAndResetLeaveError : Obligations.OnlyClearAndResetLeaveError := by
  intro s t he h
  rcases step_cases h with ⟨rfl, -⟩ | ⟨a, rest, hscript, -, ha⟩ | ⟨hbusy, -⟩
  · exact .inl ⟨he, rfl⟩
  · rcases hostAct_of_error (s := { s with script := rest }) he ha with
      ⟨rfl, rfl⟩ | ⟨c, rfl, hclr, rfl⟩ | ⟨hst, herr⟩
    · exact .inr ⟨rfl, rfl, rest, .inl hscript⟩
    · exact .inr ⟨rfl, rfl, rest, .inr ⟨c, hscript, hclr, rfl⟩⟩
    · exact .inl ⟨hst.trans he, herr⟩
  · rw [he] at hbusy
    cases hbusy

end Sys2Proof.Machine

/-! SUPPORT. The statement on reset (70_reset_and_hazards.md): with nothing asked of it and no command running, the
block stays as it is. -/

namespace Sys2Proof.Machine

variable {s : State}

/-- With no host action to come it is not the host's turn. -/
theorem State.hostTurn_of_script_nil (hs : s.script = []) : s.hostTurn = false := by
  simp [State.hostTurn, hs]

/-- "The block just stays as it is" (70_reset_and_hazards.md R313). -/
theorem step_of_quiescent (hs : s.script = []) (hb : s.st ≠ .busy) : step s = .next s := by
  rw [step, State.hostTurn_of_script_nil hs, if_neg Bool.false_ne_true, if_neg hb]

/-- Nothing starts after reset, on any instance (70_reset_and_hazards.md R300). -/
theorem step_resetOf (cfg : Config) : step (State.resetOf cfg) = .next (State.resetOf cfg) :=
  step_of_quiescent (State.resetOf_script cfg) (by simp)

/-- Settles O7: the host's reset answers `hardReset`, whose registers and buffers are those of `resetOf`, and
`State.reset` is `resetOf` of the standard parameters, with no script and no command running. -/
theorem resetLeavesTheResetValues : Obligations.ResetLeavesTheResetValues := by
  refine ⟨fun s => ⟨s.hardReset, hostAct_reset s, rfl, rfl, rfl, rfl, rfl, rfl, fun i => ?_⟩,
    rfl, rfl, rfl, rfl, rfl, fun i => ?_, step_resetOf Config.standard⟩
  · exact ⟨Memory.read_nil i, Memory.read_nil i⟩
  · exact ⟨Memory.read_nil i, Memory.read_nil i⟩

end Sys2Proof.Machine

/-! SUPPORT. The statements on a step: that it runs the host's next action or the instruction of the stream, and that in
`BUSY` an access is refused. -/

namespace Sys2Proof.Machine

variable {s : State}

/-! ### The host's turn (20_memory.md R80) -/

/-- While no command runs the host's next action is performed. -/
theorem step_of_script_cons {a : HostAction} {rest : List HostAction} (hb : s.st ≠ .busy)
    (hs : s.script = a :: rest) : step s = hostAct a { s with script := rest } := by
  have hturn : s.hostTurn = true := by simp [State.hostTurn, hs, HostAction.blocked_of_ne hb]
  rw [step, if_pos hturn, hostStep, hs]

/-- A word written to `CMD` that decodes to an instruction runs it. -/
theorem hostAct_command_of_decode {c : Byte} {i : Instr} (hb : s.st ≠ .busy)
    (hd : decode s.cfg.hasFramer .command [c] = .ok (i, [])) : hostAct (.command c) s = exec i s := by
  cases hd
  exact hostAct_command c hb

/-- Settles O5: the step is the host's action, and of a command word that is `exec` of what it decodes to. -/
theorem stepRunsTheHostsAction : Obligations.StepRunsTheHostsAction := fun s _ rest _ _ hb =>
  ⟨step_of_script_cons hb,
    fun hs hd => (step_of_script_cons hb hs).trans (hostAct_command_of_decode (s := { s with script := rest }) hb hd),
    fun hs => step_of_quiescent hs hb⟩

/-! ### The engine's turn (10_state.md R36) -/

/-- A turn of the engine where a whole header stands at the front of the container. -/
theorem engineTurn_of_header {i : Instr} {rest : List Byte} (hk : s.work.kind = .header)
    (hd : decodeHeader s.work.src = .ok (i, rest)) : engineTurn s = exec i s := by
  simp only [engineTurn, hk, hd]

/-- A turn of the engine where the container is too short for a header. -/
theorem engineTurn_of_short_header {r : Reject} (hk : s.work.kind = .header)
    (hd : decodeHeader s.work.src = .error r) : engineTurn s = .next (s.raise .truncatedData) := by
  simp only [engineTurn, hk, hd]

/-- A record is decoded only at a cursor inside the stream. -/
theorem cursor_lt_of_record {B rest : List Byte} {q : Nat} {i : Instr} (hd : decodeRecord (B.drop q) = .ok (i, rest)) :
    q < B.length := by
  have hlen := decodeRecord_ok_length hd
  rw [List.length_drop] at hlen
  omega

section EngineStep

variable (hb : s.st = .busy) (ht : s.hostTurn = false)
include hb ht

theorem step_of_record {i : Instr} {rest : List Byte} (hk : s.work.kind ≠ .header)
    (hd : decodeRecord (s.work.src.drop s.work.q) = .ok (i, rest)) : step s = exec i s :=
  (step_of_busy hb ht).trans (engineTurn_of_record hk (cursor_lt_of_record hd) hd)

theorem step_of_truncated {r : Reject} (hk : s.work.kind ≠ .header) (hq : s.work.q < s.work.src.length)
    (hd : decodeRecord (s.work.src.drop s.work.q) = .error r) : step s = .next (s.raise .truncatedData) :=
  (step_of_busy hb ht).trans (engineTurn_of_truncated hk hq hd)

theorem step_of_header {i : Instr} {rest : List Byte} (hk : s.work.kind = .header)
    (hd : decodeHeader s.work.src = .ok (i, rest)) : step s = exec i s :=
  (step_of_busy hb ht).trans (engineTurn_of_header hk hd)

theorem step_of_short_header {r : Reject} (hk : s.work.kind = .header) (hd : decodeHeader s.work.src = .error r) :
    step s = .next (s.raise .truncatedData) :=
  (step_of_busy hb ht).trans (engineTurn_of_short_header hk hd)

end EngineStep

/-- Settles O6: a record at the cursor, and a header at the front of a container. -/
theorem stepRunsTheStreamsInstruction : Obligations.StepRunsTheStreamsInstruction := fun _ _ _ hb ht =>
  ⟨step_of_record hb ht, step_of_header hb ht⟩

/-! ### Accesses in `BUSY` (20_memory.md R87) -/

/-- The actions with a meaning while a command runs (93_implementation_defined.md U3, 70_reset_and_hazards.md R301). -/
theorem HostAction.allowedWhileBusy_iff {a : HostAction} :
    a.allowedWhileBusy = true ↔ a = .readReg .st ∨ a = .reset := by
  cases a with
  | readReg r => cases r <;> simp [HostAction.allowedWhileBusy]
  | _ => simp [HostAction.allowedWhileBusy]

theorem HostAction.blocked_of_busy (a : HostAction) (hb : s.st = .busy) : a.blocked s = !a.allowedWhileBusy := by
  simp [HostAction.blocked, hb]

/-- Settles O10: the actions without a meaning in `BUSY` and the commands are refused, and a read of `ST` is no such
action. -/
theorem accessWhileBusyIsRefused : Obligations.AccessWhileBusyIsRefused := by
  refine fun s hb => ⟨fun a hst hreset => ?_, fun i hi => exec_command_of_busy hi hb, ?_⟩
  · have hnot : a.allowedWhileBusy = false := by
      simp [← Bool.not_eq_true, HostAction.allowedWhileBusy_iff, hst, hreset]
    simp [hostAct, a.blocked_of_busy hb, hnot]
  · have hallowed : (HostAction.readReg .st).blocked s = false := HostAction.blocked_of_busy _ hb
    simp [hostAct, hallowed, State.readReg, hb, Status.code]

end Sys2Proof.Machine

/-! SUPPORT. The statements on the engine's record scan (42_rc.md R190 to R192): one record at the cursor, and that the
scan, one record a step, ends in the state that `RC.DEC` and `CT.DEC` answer in one step. -/

namespace Sys2Proof.Machine

variable {s : State}

/-! ### One record at the cursor (42_rc.md R190, R191) -/

theorem decodeRecord_repeat {h : Byte} (h7 : headerIsRepeat h = true) (v : Byte) (rest : List Byte) :
    decodeRecord (h :: v :: rest) = .ok (.rep (headerLen h) v, rest) := by
  simp [decodeRecord, h7]

theorem decodeRecord_raw {h : Byte} (h7 : headerIsRepeat h = false) {rest : List Byte}
    (hlen : h.toNat ≤ rest.length) : decodeRecord (h :: rest) = .ok (.raw (rest.take h.toNat), rest.drop h.toNat) := by
  simp [decodeRecord, h7, headerLen_of_raw h h7, hlen]

section RecordStep

variable (hb : s.st = .busy) (hk : s.work.kind ≠ .header) (ht : s.hostTurn = false)
include hb hk ht

/-- A stream that ends inside the record raises `TruncatedData`, whatever the capacity (42_rc.md R194). -/
theorem step_midRecord {h : Byte} (hq : s.work.src[s.work.q]? = some h)
    (hmid : EndsMidRecord h (s.work.src.drop (s.work.q + 1))) :
    ∃ t, step s = .next t ∧ ErrorEntered s t .truncatedData := by
  obtain ⟨r, hr⟩ := exists_decodeRecord_error_iff.mpr hmid
  rw [← drop_of_getElem? hq] at hr
  exact ⟨_, step_of_truncated hb ht hk (List.getElem?_eq_some_iff.mp hq).1 hr, s.raise_entered .truncatedData⟩

/-- A record whose output does not fit raises `Capacity`. -/
theorem step_record_overflow {i : Instr} {rest : List Byte}
    (hd : decodeRecord (s.work.src.drop s.work.q) = .ok (i, rest))
    (hover : s.cfg.nmax < s.work.out.length + (recordOutput i).length) : step s = .next (s.raise .capacity) := by
  rw [step_of_record hb ht hk hd, exec_record s (decodeRecord_space hd), State.runRecord,
    if_pos (by simpa [overCapacity] using hover)]

/-- A record whose output fits appends it and moves the cursor past the record's bytes. -/
theorem step_record_fits {i : Instr} {rest : List Byte}
    (hd : decodeRecord (s.work.src.drop s.work.q) = .ok (i, rest))
    (hfits : s.work.out.length + (recordOutput i).length ≤ s.cfg.nmax) :
    step s = .next { s with
      work := { s.work with out := s.work.out ++ recordOutput i, q := s.work.q + (encode i).length } } := by
  rw [step_of_record hb ht hk hd, exec_record s (decodeRecord_space hd), State.runRecord_of_fits _ hfits]

end RecordStep

/-- Settles O30: with no value byte the record ends too early; with one it is decoded, and its output fits or not. -/
theorem repeatRecordAtTheCursor : Obligations.RepeatRecordAtTheCursor := by
  refine fun s h hb hk ht hq h7 => ⟨fun hend => step_midRecord hb hk ht hq ?_, fun val hval => ?_⟩
  · exact .inl ⟨headerIsRepeat_iff.mp h7, List.drop_eq_nil_of_le hend⟩
  · have hd : decodeRecord (s.work.src.drop s.work.q) =
        .ok (.rep (headerLen h) val, s.work.src.drop (s.work.q + 2)) := by
      rw [drop_of_getElem? hq, drop_of_getElem? hval, decodeRecord_repeat h7]
    have hlen : (recordOutput (.rep (headerLen h) val)).length = (h &&& 0x7F#8).toNat := by
      rw [recordOutput, List.length_replicate, headerLen_of_repeat h h7]
    refine ⟨fun hover => ⟨_, step_record_overflow hb hk ht hd (hlen ▸ hover), s.raise_entered .capacity⟩,
      fun hfits => ⟨_, step_record_fits hb hk ht hd (hlen ▸ hfits), ?_, rfl, rfl⟩⟩
    rw [recordOutput, headerLen_of_repeat h h7]

/-- Settles O31: with too few bytes the record ends too early; else it is decoded, and its output fits or not. -/
theorem rawRecordAtTheCursor : Obligations.RawRecordAtTheCursor := by
  refine fun s h hb hk ht hq h7 => ⟨fun hend => step_midRecord hb hk ht hq (.inr ⟨?_, ?_⟩), fun hall => ?_⟩
  · exact Nat.lt_of_not_le (mt headerIsRepeat_iff.mpr (Bool.not_eq_true _ ▸ h7))
  · have hlt := (List.getElem?_eq_some_iff.mp hq).1
    rw [List.length_drop]
    omega
  · have htail : h.toNat ≤ (s.work.src.drop (s.work.q + 1)).length := by
      rw [List.length_drop]
      omega
    have hd := decodeRecord_raw h7 htail
    rw [← drop_of_getElem? hq] at hd
    have hlen : (recordOutput (.raw ((s.work.src.drop (s.work.q + 1)).take h.toNat))).length = h.toNat :=
      List.length_take_of_le htail
    refine ⟨fun hover => ⟨_, step_record_overflow hb hk ht hd (hlen.symm ▸ hover), s.raise_entered .capacity⟩,
      fun hfits => ⟨_, step_record_fits hb hk ht hd (hlen.symm ▸ hfits), rfl, ?_, rfl⟩⟩
    rw [encode_raw_length, List.length_take_of_le htail, Nat.add_assoc]

/-! ### The scan (42_rc.md R192) -/

/-- The bytes from the cursor on. -/
def Work.rest (w : Work) : List Byte := w.src.drop w.q

/-- What the end of the scan makes of its output (42_rc.md R193, 43_container.md R219). -/
def Work.finish (w : Work) (Y : List Byte) : Except ErrCode (List Byte) :=
  match w.kind with
  | .stream => .ok Y
  | .header => .ok Y
  | .container => unrank Y w.idxw.toNat

/-- What the command ends with, seen from inside its scan: the scan of the bytes that are left, then its end. -/
def Work.outcome (nmax : Nat) (w : Work) : Except ErrCode (List Byte) :=
  (rcScanFrom (some nmax) w.rest.length w.rest w.out).bind w.finish

theorem Work.finish_of_stream {w : Work} (hk : w.kind = .stream) : w.finish = .ok := by
  funext Y
  simp only [Work.finish, hk]

theorem Work.finish_of_container {w : Work} (hk : w.kind = .container) : w.finish = fun Y => unrank Y w.idxw.toNat := by
  funext Y
  simp only [Work.finish, hk]

/-- The working state after a record. -/
def Work.afterRecord (w : Work) (i : Instr) : Work :=
  { w with out := w.out ++ recordOutput i, q := w.q + (encode i).length }

section Outcome

variable {w : Work} {nmax : Nat} {i : Instr} {rest : List Byte}

theorem Work.rest_afterRecord (hd : decodeRecord w.rest = .ok (i, rest)) : (w.afterRecord i).rest = rest := by
  obtain ⟨-, -, henc⟩ := decodeRecord_eq_ok_iff (hasFramer := true).mp hd
  calc (w.afterRecord i).rest = w.rest.drop (encode i).length := by
        rw [Work.rest, Work.rest, List.drop_drop]
        rfl
    _ = rest := by rw [← henc, List.drop_left]

theorem Work.outcome_of_end (h : w.rest = []) : w.outcome nmax = w.finish w.out := by
  rw [Work.outcome, h, rcScanFrom_nil]
  rfl

theorem Work.outcome_of_truncated {b : Byte} {bs : List Byte} {r : Reject} (h : w.rest = b :: bs)
    (hd : decodeRecord w.rest = .error r) : w.outcome nmax = .error .truncatedData := by
  rw [h] at hd
  rw [Work.outcome, h, List.length_cons, rcScanFrom_truncated hd]
  rfl

/-- The scan's equation for a record that is all there. -/
theorem Work.outcome_of_record (hd : decodeRecord w.rest = .ok (i, rest)) :
    w.outcome nmax =
      if nmax < w.out.length + (recordOutput i).length then .error .capacity else (w.afterRecord i).outcome nmax := by
  have hrest := Work.rest_afterRecord hd
  have hlt := decodeRecord_ok_length hd
  cases h : w.rest with
  | nil => simp [h] at hlt
  | cons b bs =>
    rw [h] at hd hlt
    rw [Work.outcome, Work.outcome, hrest, h, List.length_cons, rcScanFrom_record hd,
      rcScanFrom_fuel _ bs.length rest.length rest _ (Nat.le_of_lt_succ hlt) le_rfl]
    simp only [overCapacity, decide_eq_true_eq]
    split_ifs <;> rfl

end Outcome

/-- At the end of the stream the engine concludes the command. -/
theorem engineTurn_of_end (hk : s.work.kind ≠ .header) (hq : s.work.src.length ≤ s.work.q) :
    engineTurn s = .next (s.conclude (s.work.finish s.work.out)) := by
  cases h : s.work.kind with
  | header => exact absurd h hk
  | stream =>
    rw [Work.finish_of_stream h, State.conclude_ok]
    simp only [engineTurn, h, recordTurn, if_neg (Nat.not_lt.mpr hq), State.finishRcDec]
  | container =>
    rw [Work.finish_of_container h]
    simp only [engineTurn, h, recordTurn, if_neg (Nat.not_lt.mpr hq), State.finishCtDec]

/-- One step of the scan: the command ends with its outcome, or a record is passed and the outcome stays the same. -/
theorem step_scan (hb : s.st = .busy) (hk : s.work.kind ≠ .header) (ht : s.hostTurn = false) :
    step s = .next (s.conclude (s.work.outcome s.cfg.nmax)) ∨
      ∃ i, step s = .next { s with work := s.work.afterRecord i } ∧
        (s.work.afterRecord i).rest.length < s.work.rest.length ∧
        (s.work.afterRecord i).outcome s.cfg.nmax = s.work.outcome s.cfg.nmax := by
  cases hrest : s.work.rest with
  | nil =>
    left
    rw [step_of_busy hb ht, engineTurn_of_end hk (List.drop_eq_nil_iff.mp hrest), Work.outcome_of_end hrest]
  | cons b bs =>
    have hq : s.work.q < s.work.src.length := by
      have hlen : (s.work.src.drop s.work.q).length = (b :: bs).length := congrArg List.length hrest
      simp only [List.length_drop, List.length_cons] at hlen
      omega
    cases hd : decodeRecord s.work.rest with
    | error r =>
      left
      rw [step_of_truncated hb ht hk hq hd, Work.outcome_of_truncated hrest hd, State.conclude_error]
    | ok p =>
      obtain ⟨i, rest⟩ := p
      rw [Work.outcome_of_record hd]
      by_cases hover : s.cfg.nmax < s.work.out.length + (recordOutput i).length
      · left
        rw [if_pos hover, step_record_overflow hb hk ht hd hover, State.conclude_error]
      · right
        refine ⟨i, step_record_fits hb hk ht hd (Nat.le_of_not_lt hover), ?_, by rw [if_neg hover]⟩
        rw [Work.rest_afterRecord hd, ← hrest]
        exact decodeRecord_ok_length hd

theorem run_core_succ {t : State} (k : Nat) (h : step s = .next t) :
    Host.Core.run Sys2Proof.core (k + 1) s = Host.Core.run Sys2Proof.core k t :=
  run_succ (M := Sys2Proof.core) k h

/-- The scan ends within one step for each byte that is left and one more, in its outcome: the induction is on the
number of bytes that are left. -/
theorem run_scan (hb : s.st = .busy) (hk : s.work.kind ≠ .header) (hw : s.HostWaits) :
    ∃ k ≤ s.work.rest.length + 1,
      Host.Core.run Sys2Proof.core k s = .next (s.conclude (s.work.outcome s.cfg.nmax)) := by
  induction hn : s.work.rest.length using Nat.strong_induction_on generalizing s with
  | _ n ih =>
    rcases step_scan hb hk (hw.hostTurn hb) with hend | ⟨i, hstep, hlt, hout⟩
    · exact ⟨1, by omega, run_core_succ 0 hend⟩
    · rw [hn] at hlt
      obtain ⟨k, hle, hrun⟩ := ih _ hlt (s := { s with work := s.work.afterRecord i }) hb hk hw rfl
      refine ⟨k + 1, Nat.succ_le_succ (hle.trans hlt), ?_⟩
      rw [run_core_succ k hstep, hrun, hout]
      exact congrArg _ (State.conclude_congr _ rfl rfl rfl rfl rfl rfl rfl)

/-! ### `RC.DEC` and `CT.DEC` (42_rc.md R193, 43_container.md R219) -/

/-- From the start of a stream, the scan is `RcDecScan` of it and then the command's end. -/
theorem Work.outcome_of_start {w : Work} (nmax : Nat) (hq : w.q = 0) (hout : w.out = []) :
    w.outcome nmax = (rcDecScan nmax w.src).bind w.finish := by
  rw [Work.outcome, Work.rest, hq, hout, List.drop_zero, rcDecScan]

/-- `RC.DEC` answers what the state at the start of its scan concludes with. -/
theorem exec_rcDec_eq_begin (hs : s.Accepting) (hn : s.ilen.toNat ≤ s.cfg.nmax) :
    exec .rcDec s = .next (s.beginRcDec.conclude (rcDecScan s.cfg.nmax s.input)) := by
  rw [exec_rcDec_eq hs hn]
  exact congrArg _ (State.conclude_congr _ rfl rfl rfl rfl rfl rfl rfl)

/-- `CT.DEC` answers what the state at its start concludes with. -/
theorem exec_ctDec_eq_begin (hs : s.Accepting) (hf : s.cfg.hasFramer = true) (hn : s.ilen.toNat ≤ s.cfg.nmax) :
    exec .ctDec s = .next (s.beginCtDec.conclude (ctDec s.cfg.nmax s.cfg.hdrBias.val s.input)) := by
  rw [exec_ctDec_eq hs hf hn]
  exact congrArg _ (State.conclude_congr _ rfl rfl rfl rfl rfl rfl rfl)

theorem outcome_beginRcDec (s : State) (nmax : Nat) :
    s.beginRcDec.work.outcome nmax = rcDecScan nmax s.input := by
  rw [Work.outcome_of_start nmax rfl rfl, Work.finish_of_stream rfl, State.beginRcDec_work]
  cases rcDecScan nmax s.input <;> rfl

/-- Settles O35: the run of the scan from its start, whose outcome is that of `RcDecScan`. -/
theorem rcDecIsItsRecordsOneByOne : Obligations.RcDecIsItsRecordsOneByOne := by
  intro s hs hn hw
  obtain ⟨k, hk, hrun⟩ := run_scan (s := s.beginRcDec) rfl (by simp) hw
  rw [outcome_beginRcDec] at hrun
  exact ⟨k, _, by simpa [Work.rest] using hk, hrun, exec_rcDec_eq_begin hs hn⟩

/-- A container is too short for a header, or it is a header and a payload. -/
theorem container_cases (C : List Byte) :
    (C.length < 4 ∧ decodeHeader C = .error .shortHeader) ∨ ∃ h payload, C = be32 h ++ payload :=
  match C with
  | [] | [_] | [_, _] | [_, _, _] => .inl ⟨by simp, rfl⟩
  | b0 :: b1 :: b2 :: b3 :: payload => .inr ⟨unbe32 b0 b1 b2 b3, payload, by simp⟩

/-- After a header other than 0 the scan of the payload starts, with the outcome that `CtDec` has in compressed mode. -/
theorem step_compressed_header {h : Word32} {payload : List Byte} (hb : s.st = .busy) (ht : s.hostTurn = false)
    (hk : s.work.kind = .header) (hh : h ≠ 0) (hsrc : s.work.src = be32 h ++ payload) :
    ∃ w, step s = .next { s with work := w } ∧ w.kind ≠ .header ∧ w.rest = payload ∧
      w.outcome s.cfg.nmax = ctDec s.cfg.nmax s.cfg.hdrBias.val s.work.src := by
  have hd : decodeHeader s.work.src = .ok (.hdrComp h, payload) := by rw [hsrc, decodeHeader_be32, if_neg hh]
  obtain ⟨t, hexec, hidx, hkind, hpay, hq, hout, hframe⟩ := compressedHeaderStartsThePayloadScan s h payload hh hsrc
  refine ⟨t.work, by rw [step_of_header hb ht hk hd, hexec, ← hframe], by simp [hkind],
    by simp [Work.rest, hq, hpay], ?_⟩
  have hidx0 : h.toNat - s.cfg.hdrBias.val = t.work.idxw.toNat := by omega
  rw [Work.outcome_of_start _ hq hout, hpay, hsrc, ctDec_compressed hh, hidx0, Work.finish_of_container hkind]

/-- The whole run of `CT.DEC` from its start: a container too short, store mode, compressed mode. -/
theorem run_beginCtDec (hw : s.HostWaits) :
    ∃ k ≤ s.ilen.toNat + 1, Host.Core.run Sys2Proof.core k s.beginCtDec =
      .next (s.beginCtDec.conclude (ctDec s.cfg.nmax s.cfg.hdrBias.val s.input)) := by
  have hb : s.beginCtDec.st = .busy := rfl
  have ht : s.beginCtDec.hostTurn = false := State.HostWaits.hostTurn hw hb
  rcases container_cases s.input with ⟨hshort, hd⟩ | ⟨h, payload, hC⟩
  · refine ⟨1, by omega, ?_⟩
    rw [run_core_succ 0 (step_of_short_header hb ht rfl hd), ctDec_short hshort]
    rfl
  by_cases hh : h = 0
  · subst hh
    refine ⟨1, by omega, ?_⟩
    have hd : decodeHeader s.beginCtDec.work.src = .ok (.hdrStore, payload) := by
      rw [State.beginCtDec_work, hC, decodeHeader_be32, if_pos rfl]
    have hdrop : s.beginCtDec.work.src.drop Config.headerBytes = payload := by
      rw [State.beginCtDec_work, hC]
      rfl
    rw [run_core_succ 0 ((step_of_header hb ht rfl hd).trans (exec_hdrStore _)), hdrop, hC]
    rfl
  · obtain ⟨w, hstep, hk, hrest, hout⟩ := step_compressed_header hb ht rfl hh hC
    obtain ⟨k, hle, hrun⟩ := run_scan (s := { s.beginCtDec with work := w }) hb hk hw
    have hlen : s.ilen.toNat = 4 + payload.length := by rw [← s.input_length, hC, List.length_append]; rfl
    refine ⟨k + 1, by simp only [hrest] at hle; omega, ?_⟩
    rw [run_core_succ k hstep, hrun, hout]
    exact congrArg _ (State.conclude_congr _ rfl rfl rfl rfl rfl rfl rfl)

/-- Settles O36: the run from the start, whose outcome is that of `CtDec`. -/
theorem ctDecIsItsHeaderAndRecords : Obligations.CtDecIsItsHeaderAndRecords := by
  intro s hs hf hn hw
  obtain ⟨k, hk, hrun⟩ := run_beginCtDec hw
  exact ⟨k, _, hk, hrun, exec_ctDec_eq_begin hs hf hn⟩

end Sys2Proof.Machine

/-! SUPPORT. The statement on the mapping vector (40_bst.md R141, R144): `MAP` rises in the byte and then in the
position, so its entries differ, and each is a position. -/

namespace Sys2Proof.Machine

variable {T : List Byte}

/-! ### `MAP` is a permutation (40_bst.md R144) -/

section Entry

variable {j m : Nat} {b : Byte} (hb : T[j]? = some b) (hm : (lfMap T)[j]? = some m)
include hb hm

/-- An entry lies in its byte's part of the sorted order: at or after the smaller bytes. -/
theorem countP_lt_le_lfMap : T.countP (fun c => decide (c.toNat < b.toNat)) ≤ m := by
  rw [lfMap_getElem? hb, Option.some_inj] at hm
  omega

/-- An entry lies in its byte's part of the sorted order: before the greater bytes. -/
theorem lfMap_lt_countP_le : m < T.countP fun c => decide (c.toNat ≤ b.toNat) := by
  have hsplit := countP_lt_add_countP_eq T b.toNat
  have hself := countP_around hb fun c => decide (c = b)
  rw [lfMap_getElem? hb, Option.some_inj] at hm
  simp only [BitVec.toNat_inj] at hsplit
  simp only [decide_true, if_true] at hself
  omega

end Entry

/-- Of two positions with different bytes the one with the smaller byte has the smaller entry. -/
theorem lfMap_lt_of_byte_lt {j k m n : Nat} {b c : Byte} (hb : T[j]? = some b) (hm : (lfMap T)[j]? = some m)
    (hc : T[k]? = some c) (hn : (lfMap T)[k]? = some n) (hlt : b.toNat < c.toNat) : m < n :=
  calc m < T.countP (fun x => decide (x.toNat ≤ b.toNat)) := lfMap_lt_countP_le hb hm
    _ ≤ T.countP (fun x => decide (x.toNat < c.toNat)) :=
      List.countP_mono_left fun x _ hx => by
        simp only [decide_eq_true_eq] at hx ⊢
        omega
    _ ≤ n := countP_lt_le_lfMap hc hn

/-- Of two positions with the same byte the earlier one has the smaller entry. -/
theorem lfMap_lt_of_position_lt {j k m n : Nat} {b : Byte} (hb : T[j]? = some b) (hm : (lfMap T)[j]? = some m)
    (hc : T[k]? = some b) (hn : (lfMap T)[k]? = some n) (hlt : j < k) : m < n := by
  have hbefore : (T.take k)[j]? = some b := by rw [List.getElem?_take_of_lt hlt, hb]
  have hcount := countP_around hbefore fun c => decide (c = b)
  rw [List.take_take, Nat.min_eq_left hlt.le] at hcount
  rw [lfMap_getElem? hb, Option.some_inj] at hm
  rw [lfMap_getElem? hc, Option.some_inj] at hn
  simp only [decide_true, if_true] at hcount
  omega

theorem lfMap_nodup (T : List Byte) : (lfMap T).Nodup := by
  rw [List.nodup_iff_getElem?_ne_getElem?]
  intro j k hjk hk heq
  rw [lfMap_length] at hk
  have hb := List.getElem?_eq_getElem (hjk.trans hk)
  have hc := List.getElem?_eq_getElem hk
  have hm := lfMap_getElem? hb
  have hn := heq.symm.trans hm
  rcases Nat.lt_trichotomy T[j].toNat T[k].toNat with hlt | hbyte | hgt
  · exact lt_irrefl _ (lfMap_lt_of_byte_lt hb hm hc hn hlt)
  · exact lt_irrefl _ (lfMap_lt_of_position_lt hb hm (BitVec.eq_of_toNat_eq hbyte ▸ hc) hn hjk)
  · exact lt_irrefl _ (lfMap_lt_of_byte_lt hc hn hb hm hgt)

theorem lfMap_subset_range (T : List Byte) : lfMap T ⊆ List.range T.length := by
  intro m hm
  obtain ⟨j, hj⟩ := List.mem_iff_getElem?.mp hm
  have hlt : j < T.length := by simpa using (List.getElem?_eq_some_iff.mp hj).1
  exact List.mem_range.mpr ((lfMap_lt_countP_le (List.getElem?_eq_getElem hlt) hj).trans_le List.countP_le_length)

/-- Settles O41: distinct positions, as many as there are. -/
theorem lfMapIsAPermutation : Obligations.LfMapIsAPermutation := fun T =>
  (List.subperm_of_subset (lfMap_nodup T) (lfMap_subset_range T)).perm_of_length_le (by simp)

end Sys2Proof.Machine
